-- ==== Sys2Proof/Word.lean ====
section
/-! DEFINITION. The two word types of the core: bytes and 16-bit addresses (spec/00_scope.md R10, R11). -/

namespace Sys2Proof

/-- A `u8`: the width of A, X, Y, SP, the flags byte and every memory cell (R10). -/
abbrev Byte := BitVec 8

/-- A `u16`: the width of PC and of every address (R10). -/
abbrev Addr := BitVec 16

end Sys2Proof
end

