-- ==== Sys2Proof/Machine/Bits.lean ====
section
/-! DEFINITION. The bit-field, extension and byte-order helpers (spec/00_scope.md R11, R12). -/

namespace Sys2Proof

/-- `hi:lo`, the word `hi * 256 + lo` (R11). -/
def wordOf (hi lo : Byte) : Addr := BitVec.ofNat 16 (hi.toNat * 256 + lo.toNat)

/-- `w[15:8]`. -/
def highByte (w : Addr) : Byte := w.extractLsb' 8 8

/-- `w[7:0]`. -/
def lowByte (w : Addr) : Byte := w.extractLsb' 0 8

/-- `zext_16` (R12). -/
def zext16 (v : Byte) : Addr := v.setWidth 16

/-- `sext_16` (R12). -/
def sext16 (v : Byte) : Addr := v.signExtend 16

end Sys2Proof
end

