-- ==== Sys2Proof/Syntax.lean ====
section
/-! DEFINITION. The instructions as syntax (spec/30_encoding.md R80 to R85, spec/opcode_table.json). One
constructor per instruction of the table; the rows of one mnemonic are the values of its operand form, and the
105 rows "(unrecognized)" are the byte that `unrecognized` carries (log entry 10). -/

namespace Sys2Proof

/-- The 13 addressing modes, as names (R81). -/
inductive Mode where
  | implied | accumulator | immediate
  | zeropage | zeropageX | zeropageY
  | relative | indexedIndirectX | indirectIndexedY
  | absolute | absoluteX | absoluteY | indirect
  deriving DecidableEq, Repr

/-- A memory operand with its operand bytes (R83): the modes that give an effective address. -/
inductive MemMode where
  /-- `$zz` (R105) -/
  | zp (b1 : Byte)
  /-- `$zz,X` (R106) -/
  | zpX (b1 : Byte)
  /-- `$zz,Y` (R107) -/
  | zpY (b1 : Byte)
  /-- `$hhll` (R108) -/
  | abs (base : Addr)
  /-- `$hhll,X` (R109) -/
  | absX (base : Addr)
  /-- `$hhll,Y` (R110) -/
  | absY (base : Addr)
  /-- `($zz,X)` (R111) -/
  | indX (b1 : Byte)
  /-- `($zz),Y` (R112) -/
  | indY (b1 : Byte)
  deriving DecidableEq, Repr

/-- The operand of a read-class instruction (R116): an immediate byte (R104) or a memory operand. -/
inductive ReadOp where
  | imm (v : Byte)
  | mem (m : MemMode)
  deriving DecidableEq, Repr

/-- The four memory operands of the read-modify-write instructions (spec/42_shift_incdec.md). -/
inductive RmwMode where
  | zp (b1 : Byte)
  | zpX (b1 : Byte)
  | abs (base : Addr)
  | absX (base : Addr)
  deriving DecidableEq, Repr

/-- The operand of a shift or rotate: the accumulator (R103) or memory. -/
inductive ShiftOp where
  | acc
  | mem (m : RmwMode)
  deriving DecidableEq, Repr

/-- The instructions of spec/opcode_table.json. -/
inductive Instr where
  -- arithmetic and logic (spec/41_alu.md)
  | adc (r : ReadOp)
  | sbc (r : ReadOp)
  | and (r : ReadOp)
  | ora (r : ReadOp)
  | eor (r : ReadOp)
  | bit (r : ReadOp)
  -- loads and stores (spec/46_load_store.md)
  | lda (r : ReadOp)
  | ldx (r : ReadOp)
  | ldy (r : ReadOp)
  | sta (m : MemMode)
  | stx (m : MemMode)
  | sty (m : MemMode)
  -- shifts, rotates, increments, decrements (spec/42_shift_incdec.md)
  | asl (o : ShiftOp)
  | lsr (o : ShiftOp)
  | rol (o : ShiftOp)
  | ror (o : ShiftOp)
  | inc (m : RmwMode)
  | dec (m : RmwMode)
  | inx
  | iny
  | dex
  | dey
  -- compares and branches (spec/43_compare_branch.md)
  | cmp (r : ReadOp)
  | cpx (r : ReadOp)
  | cpy (r : ReadOp)
  | bpl (offset : Byte)
  | bmi (offset : Byte)
  | bvc (offset : Byte)
  | bvs (offset : Byte)
  | bcc (offset : Byte)
  | bcs (offset : Byte)
  | bne (offset : Byte)
  | beq (offset : Byte)
  -- jumps, subroutines, stack (spec/44_jump_stack.md)
  | jmp (target : Addr)
  | jmpInd (ptr : Addr)
  | jsr (target : Addr)
  | rts
  | pha
  | php
  | plp
  | pla
  -- transfers, flag operations, no operation (spec/45_transfer_flag_nop.md)
  | tax
  | tay
  | txa
  | tya
  | tsx
  | txs
  | clc
  | cld
  | cli
  | clv
  | sec
  | sed
  | sei
  | nop
  -- the software trap and its return (spec/47_system.md)
  | brk
  | rti
  -- one of the 105 opcode bytes with no descriptor (R87, R225)
  | unrecognized (op : Byte)
  deriving DecidableEq, Repr

end Sys2Proof
end

