-- ==== Sys2Proof/Machine/OpcodeMap.lean ====
section
/-! DEFINITION. Which operand forms and which bytes the opcode map has (spec/30_encoding.md R85, R87): the checks
WellFormed is made of. They stand here, and not in WellFormed.lean, so that they can be mended with the decoder. -/

namespace Sys2Proof

/-- The eight modes of ADC, SBC, AND, ORA, EOR, CMP and LDA: every read operand but `$zz,Y` (R131 to R135, R170, R240). -/
def ReadOp.aluForm : ReadOp → Bool
  | .mem (.zpY _) => false
  | _ => true

/-- BIT: zeropage and absolute (R136). -/
def ReadOp.bitForm : ReadOp → Bool
  | .mem (.zp _) | .mem (.abs _) => true
  | _ => false

/-- CPX and CPY: immediate, zeropage and absolute (R171, R172). -/
def ReadOp.indexCompareForm : ReadOp → Bool
  | .imm _ | .mem (.zp _) | .mem (.abs _) => true
  | _ => false

/-- LDX: immediate, zeropage, zeropage_y, absolute, absolute_y (R241). -/
def ReadOp.ldxForm : ReadOp → Bool
  | .imm _ | .mem (.zp _) | .mem (.zpY _) | .mem (.abs _) | .mem (.absY _) => true
  | _ => false

/-- LDY: immediate, zeropage, zeropage_x, absolute, absolute_x (R242). -/
def ReadOp.ldyForm : ReadOp → Bool
  | .imm _ | .mem (.zp _) | .mem (.zpX _) | .mem (.abs _) | .mem (.absX _) => true
  | _ => false

/-- STA: every memory operand but `$zz,Y`; there is no immediate form (R243). -/
def MemMode.staForm : MemMode → Bool
  | .zpY _ => false
  | _ => true

/-- STX: zeropage, zeropage_y, absolute (R244). -/
def MemMode.stxForm : MemMode → Bool
  | .zp _ | .zpY _ | .abs _ => true
  | _ => false

/-- STY: zeropage, zeropage_x, absolute (R245). -/
def MemMode.styForm : MemMode → Bool
  | .zp _ | .zpX _ | .abs _ => true
  | _ => false

/-- The 105 opcode bytes with no descriptor (R87), a row of the map (its high digit) at a time. -/
def unrecognizedLow : Nat → List Nat
  | 0x0 => [0x2, 0x3, 0x4, 0x7, 0xB, 0xC, 0xF]
  | 0x1 => [0x2, 0x3, 0x4, 0x7, 0xA, 0xB, 0xC, 0xF]
  | 0x2 => [0x2, 0x3, 0x7, 0xB, 0xF]
  | 0x3 => [0x2, 0x3, 0x4, 0x7, 0xA, 0xB, 0xC, 0xF]
  | 0x4 => [0x2, 0x3, 0x4, 0x7, 0xB, 0xF]
  | 0x5 => [0x2, 0x3, 0x4, 0x7, 0xA, 0xB, 0xC, 0xF]
  | 0x6 => [0x2, 0x3, 0x4, 0x7, 0xB, 0xF]
  | 0x7 => [0x2, 0x3, 0x4, 0x7, 0xA, 0xB, 0xC, 0xF]
  | 0x8 => [0x0, 0x2, 0x3, 0x7, 0x9, 0xB, 0xF]
  | 0x9 => [0x2, 0x3, 0x7, 0xB, 0xC, 0xE, 0xF]
  | 0xA => [0x3, 0x7, 0xB, 0xF]
  | 0xB => [0x2, 0x3, 0x7, 0xB, 0xF]
  | 0xC => [0x2, 0x3, 0x7, 0xB, 0xF]
  | 0xD => [0x2, 0x3, 0x4, 0x7, 0xA, 0xB, 0xC, 0xF]
  | 0xE => [0x2, 0x3, 0x7, 0xB, 0xF]
  | 0xF => [0x2, 0x3, 0x4, 0x7, 0xA, 0xB, 0xC, 0xF]
  | _ => []

/-- Whether a byte is one of the unrecognized opcodes (R87). -/
def isUnrecognized (op : Byte) : Bool :=
  (unrecognizedLow (op.toNat / 16)).contains (op.toNat % 16)

end Sys2Proof
end

