-- ==== Sys2Proof/WellFormed.lean ====
section
/-! DEFINITION. Which terms of `Instr` the opcode map has a byte for (spec/30_encoding.md R85, R87). A check per
operand form (Machine/OpcodeMap.lean); the forms whose every value has a byte need none. -/

namespace Sys2Proof

/-- The terms the opcode map has a byte for. -/
def WellFormed : Instr → Bool
  | .adc r | .sbc r | .and r | .ora r | .eor r | .cmp r | .lda r => r.aluForm
  | .bit r => r.bitForm
  | .cpx r | .cpy r => r.indexCompareForm
  | .ldx r => r.ldxForm
  | .ldy r => r.ldyForm
  | .sta m => m.staForm
  | .stx m => m.stxForm
  | .sty m => m.styForm
  | .asl _ | .lsr _ | .rol _ | .ror _ | .inc _ | .dec _ => true
  | .inx | .iny | .dex | .dey => true
  | .bpl _ | .bmi _ | .bvc _ | .bvs _ | .bcc _ | .bcs _ | .bne _ | .beq _ => true
  | .jmp _ | .jmpInd _ | .jsr _ | .rts => true
  | .pha | .php | .plp | .pla => true
  | .tax | .tay | .txa | .tya | .tsx | .txs => true
  | .clc | .cld | .cli | .clv | .sec | .sed | .sei | .nop => true
  | .brk | .rti => true
  | .unrecognized op => isUnrecognized op

end Sys2Proof
end

