-- ==== Sys2Proof/Decode.lean ====
section
/-! DEFINITION. The decoder, total on any bytes, and the encoder (spec/30_encoding.md R80 to R89). The decoder follows
the opcode map of R85 row by row; the encoder follows the Encoding line of each instruction's own rule. -/

namespace Sys2Proof

/-! ## Modes and lengths -/

/-- The mode of a memory operand. -/
def MemMode.mode : MemMode → Mode
  | .zp _ => .zeropage
  | .zpX _ => .zeropageX
  | .zpY _ => .zeropageY
  | .abs _ => .absolute
  | .absX _ => .absoluteX
  | .absY _ => .absoluteY
  | .indX _ => .indexedIndirectX
  | .indY _ => .indirectIndexedY

/-- The mode of a read operand. -/
def ReadOp.mode : ReadOp → Mode
  | .imm _ => .immediate
  | .mem m => m.mode

/-- A read-modify-write operand as a memory operand. -/
def RmwMode.toMem : RmwMode → MemMode
  | .zp b1 => .zp b1
  | .zpX b1 => .zpX b1
  | .abs base => .abs base
  | .absX base => .absX base

/-- The mode of a shift operand. -/
def ShiftOp.mode : ShiftOp → Mode
  | .acc => .accumulator
  | .mem m => m.toMem.mode

/-- The descriptor's mode of an instruction (R84). -/
def Instr.mode : Instr → Mode
  | .adc r | .sbc r | .and r | .ora r | .eor r | .bit r | .lda r | .ldx r | .ldy r | .cmp r | .cpx r | .cpy r => r.mode
  | .sta m | .stx m | .sty m => m.mode
  | .asl o | .lsr o | .rol o | .ror o => o.mode
  | .inc m | .dec m => m.toMem.mode
  | .bpl _ | .bmi _ | .bvc _ | .bvs _ | .bcc _ | .bcs _ | .bne _ | .beq _ => .relative
  | .jmp _ | .jsr _ => .absolute
  | .jmpInd _ => .indirect
  | .inx | .iny | .dex | .dey | .rts | .pha | .php | .plp | .pla | .tax | .tay | .txa | .tya | .tsx | .txs => .implied
  | .clc | .cld | .cli | .clv | .sec | .sed | .sei | .nop | .brk | .rti => .implied
  | .unrecognized _ => .implied

/-- How many operand bytes follow the opcode (R81). -/
def Mode.operandBytes : Mode → Nat
  | .implied | .accumulator => 0
  | .immediate | .zeropage | .zeropageX | .zeropageY | .relative | .indexedIndirectX | .indirectIndexedY => 1
  | .absolute | .absoluteX | .absoluteY | .indirect => 2

/-- The length of an instruction by its mode (R81). -/
def Mode.length (m : Mode) : Nat := 1 + m.operandBytes

/-- The length of an instruction (R81, R89); an unrecognized opcode has length 1. -/
def Instr.length (i : Instr) : Nat := i.mode.length

/-! ## The decoder -/

/-- Row 0x of the opcode map (R85). -/
def decodeRow0 (lo : Nat) (op b1 b2 : Byte) : Instr :=
  match lo with
  | 0x0 => .brk
  | 0x1 => .ora (.mem (.indX b1))
  | 0x5 => .ora (.mem (.zp b1))
  | 0x6 => .asl (.mem (.zp b1))
  | 0x8 => .php
  | 0x9 => .ora (.imm b1)
  | 0xA => .asl .acc
  | 0xD => .ora (.mem (.abs (wordOf b2 b1)))
  | 0xE => .asl (.mem (.abs (wordOf b2 b1)))
  | _ => .unrecognized op

/-- Row 1x of the opcode map (R85). -/
def decodeRow1 (lo : Nat) (op b1 b2 : Byte) : Instr :=
  match lo with
  | 0x0 => .bpl b1
  | 0x1 => .ora (.mem (.indY b1))
  | 0x5 => .ora (.mem (.zpX b1))
  | 0x6 => .asl (.mem (.zpX b1))
  | 0x8 => .clc
  | 0x9 => .ora (.mem (.absY (wordOf b2 b1)))
  | 0xD => .ora (.mem (.absX (wordOf b2 b1)))
  | 0xE => .asl (.mem (.absX (wordOf b2 b1)))
  | _ => .unrecognized op

/-- Row 2x of the opcode map (R85). -/
def decodeRow2 (lo : Nat) (op b1 b2 : Byte) : Instr :=
  match lo with
  | 0x0 => .jsr (wordOf b2 b1)
  | 0x1 => .and (.mem (.indX b1))
  | 0x4 => .bit (.mem (.zp b1))
  | 0x5 => .and (.mem (.zp b1))
  | 0x6 => .rol (.mem (.zp b1))
  | 0x8 => .plp
  | 0x9 => .and (.imm b1)
  | 0xA => .rol .acc
  | 0xC => .bit (.mem (.abs (wordOf b2 b1)))
  | 0xD => .and (.mem (.abs (wordOf b2 b1)))
  | 0xE => .rol (.mem (.abs (wordOf b2 b1)))
  | _ => .unrecognized op

/-- Row 3x of the opcode map (R85). -/
def decodeRow3 (lo : Nat) (op b1 b2 : Byte) : Instr :=
  match lo with
  | 0x0 => .bmi b1
  | 0x1 => .and (.mem (.indY b1))
  | 0x5 => .and (.mem (.zpX b1))
  | 0x6 => .rol (.mem (.zpX b1))
  | 0x8 => .sec
  | 0x9 => .and (.mem (.absY (wordOf b2 b1)))
  | 0xD => .and (.mem (.absX (wordOf b2 b1)))
  | 0xE => .rol (.mem (.absX (wordOf b2 b1)))
  | _ => .unrecognized op

/-- Row 4x of the opcode map (R85). -/
def decodeRow4 (lo : Nat) (op b1 b2 : Byte) : Instr :=
  match lo with
  | 0x0 => .rti
  | 0x1 => .eor (.mem (.indX b1))
  | 0x5 => .eor (.mem (.zp b1))
  | 0x6 => .lsr (.mem (.zp b1))
  | 0x8 => .pha
  | 0x9 => .eor (.imm b1)
  | 0xA => .lsr .acc
  | 0xC => .jmp (wordOf b2 b1)
  | 0xD => .eor (.mem (.abs (wordOf b2 b1)))
  | 0xE => .lsr (.mem (.abs (wordOf b2 b1)))
  | _ => .unrecognized op

/-- Row 5x of the opcode map (R85). -/
def decodeRow5 (lo : Nat) (op b1 b2 : Byte) : Instr :=
  match lo with
  | 0x0 => .bvc b1
  | 0x1 => .eor (.mem (.indY b1))
  | 0x5 => .eor (.mem (.zpX b1))
  | 0x6 => .lsr (.mem (.zpX b1))
  | 0x8 => .cli
  | 0x9 => .eor (.mem (.absY (wordOf b2 b1)))
  | 0xD => .eor (.mem (.absX (wordOf b2 b1)))
  | 0xE => .lsr (.mem (.absX (wordOf b2 b1)))
  | _ => .unrecognized op

/-- Row 6x of the opcode map (R85). -/
def decodeRow6 (lo : Nat) (op b1 b2 : Byte) : Instr :=
  match lo with
  | 0x0 => .rts
  | 0x1 => .adc (.mem (.indX b1))
  | 0x5 => .adc (.mem (.zp b1))
  | 0x6 => .ror (.mem (.zp b1))
  | 0x8 => .pla
  | 0x9 => .adc (.imm b1)
  | 0xA => .ror .acc
  | 0xC => .jmpInd (wordOf b2 b1)
  | 0xD => .adc (.mem (.abs (wordOf b2 b1)))
  | 0xE => .ror (.mem (.abs (wordOf b2 b1)))
  | _ => .unrecognized op

/-- Row 7x of the opcode map (R85). -/
def decodeRow7 (lo : Nat) (op b1 b2 : Byte) : Instr :=
  match lo with
  | 0x0 => .bvs b1
  | 0x1 => .adc (.mem (.indY b1))
  | 0x5 => .adc (.mem (.zpX b1))
  | 0x6 => .ror (.mem (.zpX b1))
  | 0x8 => .sei
  | 0x9 => .adc (.mem (.absY (wordOf b2 b1)))
  | 0xD => .adc (.mem (.absX (wordOf b2 b1)))
  | 0xE => .ror (.mem (.absX (wordOf b2 b1)))
  | _ => .unrecognized op

/-- Row 8x of the opcode map (R85). -/
def decodeRow8 (lo : Nat) (op b1 b2 : Byte) : Instr :=
  match lo with
  | 0x1 => .sta (.indX b1)
  | 0x4 => .sty (.zp b1)
  | 0x5 => .sta (.zp b1)
  | 0x6 => .stx (.zp b1)
  | 0x8 => .dey
  | 0xA => .txa
  | 0xC => .sty (.abs (wordOf b2 b1))
  | 0xD => .sta (.abs (wordOf b2 b1))
  | 0xE => .stx (.abs (wordOf b2 b1))
  | _ => .unrecognized op

/-- Row 9x of the opcode map (R85). -/
def decodeRow9 (lo : Nat) (op b1 b2 : Byte) : Instr :=
  match lo with
  | 0x0 => .bcc b1
  | 0x1 => .sta (.indY b1)
  | 0x4 => .sty (.zpX b1)
  | 0x5 => .sta (.zpX b1)
  | 0x6 => .stx (.zpY b1)
  | 0x8 => .tya
  | 0x9 => .sta (.absY (wordOf b2 b1))
  | 0xA => .txs
  | 0xD => .sta (.absX (wordOf b2 b1))
  | _ => .unrecognized op

/-- Row Ax of the opcode map (R85). -/
def decodeRowA (lo : Nat) (op b1 b2 : Byte) : Instr :=
  match lo with
  | 0x0 => .ldy (.imm b1)
  | 0x1 => .lda (.mem (.indX b1))
  | 0x2 => .ldx (.imm b1)
  | 0x4 => .ldy (.mem (.zp b1))
  | 0x5 => .lda (.mem (.zp b1))
  | 0x6 => .ldx (.mem (.zp b1))
  | 0x8 => .tay
  | 0x9 => .lda (.imm b1)
  | 0xA => .tax
  | 0xC => .ldy (.mem (.abs (wordOf b2 b1)))
  | 0xD => .lda (.mem (.abs (wordOf b2 b1)))
  | 0xE => .ldx (.mem (.abs (wordOf b2 b1)))
  | _ => .unrecognized op

/-- Row Bx of the opcode map (R85). -/
def decodeRowB (lo : Nat) (op b1 b2 : Byte) : Instr :=
  match lo with
  | 0x0 => .bcs b1
  | 0x1 => .lda (.mem (.indY b1))
  | 0x4 => .ldy (.mem (.zpX b1))
  | 0x5 => .lda (.mem (.zpX b1))
  | 0x6 => .ldx (.mem (.zpY b1))
  | 0x8 => .clv
  | 0x9 => .lda (.mem (.absY (wordOf b2 b1)))
  | 0xA => .tsx
  | 0xC => .ldy (.mem (.absX (wordOf b2 b1)))
  | 0xD => .lda (.mem (.absX (wordOf b2 b1)))
  | 0xE => .ldx (.mem (.absY (wordOf b2 b1)))
  | _ => .unrecognized op

/-- Row Cx of the opcode map (R85). -/
def decodeRowC (lo : Nat) (op b1 b2 : Byte) : Instr :=
  match lo with
  | 0x0 => .cpy (.imm b1)
  | 0x1 => .cmp (.mem (.indX b1))
  | 0x4 => .cpy (.mem (.zp b1))
  | 0x5 => .cmp (.mem (.zp b1))
  | 0x6 => .dec (.zp b1)
  | 0x8 => .iny
  | 0x9 => .cmp (.imm b1)
  | 0xA => .dex
  | 0xC => .cpy (.mem (.abs (wordOf b2 b1)))
  | 0xD => .cmp (.mem (.abs (wordOf b2 b1)))
  | 0xE => .dec (.abs (wordOf b2 b1))
  | _ => .unrecognized op

/-- Row Dx of the opcode map (R85). -/
def decodeRowD (lo : Nat) (op b1 b2 : Byte) : Instr :=
  match lo with
  | 0x0 => .bne b1
  | 0x1 => .cmp (.mem (.indY b1))
  | 0x5 => .cmp (.mem (.zpX b1))
  | 0x6 => .dec (.zpX b1)
  | 0x8 => .cld
  | 0x9 => .cmp (.mem (.absY (wordOf b2 b1)))
  | 0xD => .cmp (.mem (.absX (wordOf b2 b1)))
  | 0xE => .dec (.absX (wordOf b2 b1))
  | _ => .unrecognized op

/-- Row Ex of the opcode map (R85). -/
def decodeRowE (lo : Nat) (op b1 b2 : Byte) : Instr :=
  match lo with
  | 0x0 => .cpx (.imm b1)
  | 0x1 => .sbc (.mem (.indX b1))
  | 0x4 => .cpx (.mem (.zp b1))
  | 0x5 => .sbc (.mem (.zp b1))
  | 0x6 => .inc (.zp b1)
  | 0x8 => .inx
  | 0x9 => .sbc (.imm b1)
  | 0xA => .nop
  | 0xC => .cpx (.mem (.abs (wordOf b2 b1)))
  | 0xD => .sbc (.mem (.abs (wordOf b2 b1)))
  | 0xE => .inc (.abs (wordOf b2 b1))
  | _ => .unrecognized op

/-- Row Fx of the opcode map (R85). -/
def decodeRowF (lo : Nat) (op b1 b2 : Byte) : Instr :=
  match lo with
  | 0x0 => .beq b1
  | 0x1 => .sbc (.mem (.indY b1))
  | 0x5 => .sbc (.mem (.zpX b1))
  | 0x6 => .inc (.zpX b1)
  | 0x8 => .sed
  | 0x9 => .sbc (.mem (.absY (wordOf b2 b1)))
  | 0xD => .sbc (.mem (.absX (wordOf b2 b1)))
  | 0xE => .inc (.absX (wordOf b2 b1))
  | _ => .unrecognized op

/-- The instruction with opcode `op` and operand bytes `b1`, `b2` (R84, R85); it uses as many of the two as its
mode has. Every byte is the opcode of an instruction: the map's dashes are unrecognized opcodes (R87). -/
def instrOf (op b1 b2 : Byte) : Instr :=
  let lo := op.toNat % 16
  match op.toNat / 16 with
  | 0x0 => decodeRow0 lo op b1 b2
  | 0x1 => decodeRow1 lo op b1 b2
  | 0x2 => decodeRow2 lo op b1 b2
  | 0x3 => decodeRow3 lo op b1 b2
  | 0x4 => decodeRow4 lo op b1 b2
  | 0x5 => decodeRow5 lo op b1 b2
  | 0x6 => decodeRow6 lo op b1 b2
  | 0x7 => decodeRow7 lo op b1 b2
  | 0x8 => decodeRow8 lo op b1 b2
  | 0x9 => decodeRow9 lo op b1 b2
  | 0xA => decodeRowA lo op b1 b2
  | 0xB => decodeRowB lo op b1 b2
  | 0xC => decodeRowC lo op b1 b2
  | 0xD => decodeRowD lo op b1 b2
  | 0xE => decodeRowE lo op b1 b2
  | _ => decodeRowF lo op b1 b2

/-- Why a list of bytes has no instruction at its start. DESIGN CHOICE, safe: no step meets either (log entry 16). -/
inductive DecodeError where
  /-- No byte at all. -/
  | noBytes
  /-- The list ends before the operand bytes that the opcode's mode takes. -/
  | truncated (op : Byte)
  deriving DecidableEq, Repr

/-- The instruction at the start of a list of bytes, with the rest of the list. -/
def decode : List Byte → Except DecodeError (Instr × List Byte)
  | [] => .error .noBytes
  | op :: rest =>
    match (instrOf op 0 0).mode.operandBytes, rest with
    | 0, rest => .ok (instrOf op 0 0, rest)
    | 1, b1 :: rest => .ok (instrOf op b1 0, rest)
    | 2, b1 :: b2 :: rest => .ok (instrOf op b1 b2, rest)
    | _, _ => .error (.truncated op)

/-- The instruction a word of the opcode table stands for: bit 0 of `w` is bit 0 of the first byte, and the second
byte is bits 15..8. Bits at `nbits` and above are 0. -/
def decodeTableWord (nbits w : Nat) : Option Instr :=
  let v := w % 2 ^ nbits
  match decode [BitVec.ofNat 8 v, BitVec.ofNat 8 (v / 256), BitVec.ofNat 8 (v / 65536)] with
  | .ok (i, _) => some i
  | .error _ => none

/-! ## The encoder -/

/-- Opcode of a read operand with the eight ALU modes, the bytes in the order of the rules' Encoding lines. -/
def ReadOp.aluOpcode (imm zp zpX abs absX absY indX indY : Byte) : ReadOp → Option Byte
  | .imm _ => some imm
  | .mem (.zp _) => some zp
  | .mem (.zpX _) => some zpX
  | .mem (.zpY _) => none
  | .mem (.abs _) => some abs
  | .mem (.absX _) => some absX
  | .mem (.absY _) => some absY
  | .mem (.indX _) => some indX
  | .mem (.indY _) => some indY

/-- BIT (R136). -/
def ReadOp.bitOpcode (zp abs : Byte) : ReadOp → Option Byte
  | .mem (.zp _) => some zp
  | .mem (.abs _) => some abs
  | _ => none

/-- CPX and CPY (R171, R172). -/
def ReadOp.indexCompareOpcode (imm zp abs : Byte) : ReadOp → Option Byte
  | .imm _ => some imm
  | .mem (.zp _) => some zp
  | .mem (.abs _) => some abs
  | _ => none

/-- LDX (R241). -/
def ReadOp.ldxOpcode (imm zp zpY abs absY : Byte) : ReadOp → Option Byte
  | .imm _ => some imm
  | .mem (.zp _) => some zp
  | .mem (.zpY _) => some zpY
  | .mem (.abs _) => some abs
  | .mem (.absY _) => some absY
  | _ => none

/-- LDY (R242). -/
def ReadOp.ldyOpcode (imm zp zpX abs absX : Byte) : ReadOp → Option Byte
  | .imm _ => some imm
  | .mem (.zp _) => some zp
  | .mem (.zpX _) => some zpX
  | .mem (.abs _) => some abs
  | .mem (.absX _) => some absX
  | _ => none

/-- STA (R243). -/
def MemMode.staOpcode (zp zpX abs absX absY indX indY : Byte) : MemMode → Option Byte
  | .zp _ => some zp
  | .zpX _ => some zpX
  | .zpY _ => none
  | .abs _ => some abs
  | .absX _ => some absX
  | .absY _ => some absY
  | .indX _ => some indX
  | .indY _ => some indY

/-- STX (R244). -/
def MemMode.stxOpcode (zp zpY abs : Byte) : MemMode → Option Byte
  | .zp _ => some zp
  | .zpY _ => some zpY
  | .abs _ => some abs
  | _ => none

/-- STY (R245). -/
def MemMode.styOpcode (zp zpX abs : Byte) : MemMode → Option Byte
  | .zp _ => some zp
  | .zpX _ => some zpX
  | .abs _ => some abs
  | _ => none

/-- INC and DEC (R154, R155). -/
def RmwMode.opcode (zp zpX abs absX : Byte) : RmwMode → Byte
  | .zp _ => zp
  | .zpX _ => zpX
  | .abs _ => abs
  | .absX _ => absX

/-- The shifts and rotates (R150 to R153). -/
def ShiftOp.opcode (acc zp zpX abs absX : Byte) : ShiftOp → Byte
  | .acc => acc
  | .mem m => m.opcode zp zpX abs absX

/-- The opcode byte of an instruction, where the map has one. -/
def Instr.opcode : Instr → Option Byte
  | .adc r => r.aluOpcode 0x69 0x65 0x75 0x6D 0x7D 0x79 0x61 0x71
  | .sbc r => r.aluOpcode 0xE9 0xE5 0xF5 0xED 0xFD 0xF9 0xE1 0xF1
  | .and r => r.aluOpcode 0x29 0x25 0x35 0x2D 0x3D 0x39 0x21 0x31
  | .ora r => r.aluOpcode 0x09 0x05 0x15 0x0D 0x1D 0x19 0x01 0x11
  | .eor r => r.aluOpcode 0x49 0x45 0x55 0x4D 0x5D 0x59 0x41 0x51
  | .bit r => r.bitOpcode 0x24 0x2C
  | .lda r => r.aluOpcode 0xA9 0xA5 0xB5 0xAD 0xBD 0xB9 0xA1 0xB1
  | .ldx r => r.ldxOpcode 0xA2 0xA6 0xB6 0xAE 0xBE
  | .ldy r => r.ldyOpcode 0xA0 0xA4 0xB4 0xAC 0xBC
  | .sta m => m.staOpcode 0x85 0x95 0x8D 0x9D 0x99 0x81 0x91
  | .stx m => m.stxOpcode 0x86 0x96 0x8E
  | .sty m => m.styOpcode 0x84 0x94 0x8C
  | .asl o => some (o.opcode 0x0A 0x06 0x16 0x0E 0x1E)
  | .lsr o => some (o.opcode 0x4A 0x46 0x56 0x4E 0x5E)
  | .rol o => some (o.opcode 0x2A 0x26 0x36 0x2E 0x3E)
  | .ror o => some (o.opcode 0x6A 0x66 0x76 0x6E 0x7E)
  | .inc m => some (m.opcode 0xE6 0xF6 0xEE 0xFE)
  | .dec m => some (m.opcode 0xC6 0xD6 0xCE 0xDE)
  | .inx => some 0xE8
  | .iny => some 0xC8
  | .dex => some 0xCA
  | .dey => some 0x88
  | .cmp r => r.aluOpcode 0xC9 0xC5 0xD5 0xCD 0xDD 0xD9 0xC1 0xD1
  | .cpx r => r.indexCompareOpcode 0xE0 0xE4 0xEC
  | .cpy r => r.indexCompareOpcode 0xC0 0xC4 0xCC
  | .bpl _ => some 0x10
  | .bmi _ => some 0x30
  | .bvc _ => some 0x50
  | .bvs _ => some 0x70
  | .bcc _ => some 0x90
  | .bcs _ => some 0xB0
  | .bne _ => some 0xD0
  | .beq _ => some 0xF0
  | .jmp _ => some 0x4C
  | .jmpInd _ => some 0x6C
  | .jsr _ => some 0x20
  | .rts => some 0x60
  | .pha => some 0x48
  | .php => some 0x08
  | .plp => some 0x28
  | .pla => some 0x68
  | .tax => some 0xAA
  | .tay => some 0xA8
  | .txa => some 0x8A
  | .tya => some 0x98
  | .tsx => some 0xBA
  | .txs => some 0x9A
  | .clc => some 0x18
  | .cld => some 0xD8
  | .cli => some 0x58
  | .clv => some 0xB8
  | .sec => some 0x38
  | .sed => some 0xF8
  | .sei => some 0x78
  | .nop => some 0xEA
  | .brk => some 0x00
  | .rti => some 0x40
  | .unrecognized op => if isUnrecognized op then some op else none

/-- A 16-bit operand as its two bytes, the low byte first (R82, R83). -/
def wordBytes (w : Addr) : List Byte := [lowByte w, highByte w]

/-- The operand bytes of a memory operand (R82). -/
def MemMode.bytes : MemMode → List Byte
  | .zp b1 | .zpX b1 | .zpY b1 | .indX b1 | .indY b1 => [b1]
  | .abs base | .absX base | .absY base => wordBytes base

/-- The operand bytes of a read operand. -/
def ReadOp.bytes : ReadOp → List Byte
  | .imm v => [v]
  | .mem m => m.bytes

/-- The operand bytes of a shift operand. -/
def ShiftOp.bytes : ShiftOp → List Byte
  | .acc => []
  | .mem m => m.toMem.bytes

/-- The operand bytes of an instruction. -/
def Instr.operandBytes : Instr → List Byte
  | .adc r | .sbc r | .and r | .ora r | .eor r | .bit r | .lda r | .ldx r | .ldy r | .cmp r | .cpx r | .cpy r => r.bytes
  | .sta m | .stx m | .sty m => m.bytes
  | .asl o | .lsr o | .rol o | .ror o => o.bytes
  | .inc m | .dec m => m.toMem.bytes
  | .bpl b | .bmi b | .bvc b | .bvs b | .bcc b | .bcs b | .bne b | .beq b => [b]
  | .jmp w | .jmpInd w | .jsr w => wordBytes w
  | .inx | .iny | .dex | .dey | .rts | .pha | .php | .plp | .pla | .tax | .tay | .txa | .tya | .tsx | .txs => []
  | .clc | .cld | .cli | .clv | .sec | .sed | .sei | .nop | .brk | .rti => []
  | .unrecognized _ => []

/-- The bytes of a well-formed instruction; none for a term the map has no byte for. -/
def encode (i : Instr) : List Byte :=
  match i.opcode with
  | some op => op :: i.operandBytes
  | none => []

end Sys2Proof
end

