-- ==== Sys2Proof/Config.lean ====
section
/-! DEFINITION. The implementation parameters the spec leaves selectable (spec/00_scope.md R10): the two
behavioural parameters and the cycle table, and the open inputs of `reset`. Their default values stand in Machine/Defaults.lean. -/

namespace Sys2Proof

/-- `RETURN_ADDRESS_CONVENTION` (R10; spec/92_eei_decisions.md D5): what JSR pushes and how RTS uses it. -/
inductive ReturnConvention where
  /-- JSR pushes `pc0 + 3` and RTS uses the pulled word unchanged: the spec's default. -/
  | nextInstruction
  /-- JSR pushes `pc0 + 2` and RTS adds 1: the NMOS part. -/
  | nmosLastByte
  deriving DecidableEq, Repr

/-- `CYCLE_TABLE` (R10; spec/92_eei_decisions.md D12): a base cycle count for each opcode byte, given as its rows that
depart from the default table of opcode_table.json. A row listed twice takes its first count; a row not listed takes
the default's. So `[]` is the default table, and a table of any counts can be written. DESIGN CHOICE, safe (log entry 6). -/
abbrev CycleTable := List (Byte × Nat)

/-- The selectable parameters of R10. R311(d): they are fixed for the whole run;
no step writes them. They are held in the machine's state, so that every statement over all states holds for
every setting. DESIGN CHOICE, safe (log entry 5). -/
structure Params where
  /-- `RETURN_ADDRESS_CONVENTION` (D5). -/
  returnConvention : ReturnConvention
  /-- `JMP_INDIRECT_PAGE_WRAP` (D6). -/
  jmpIndirectPageWrap : Bool
  /-- `CYCLE_TABLE` (D12). -/
  cycleTable : CycleTable
  deriving DecidableEq, Repr

/-- The inputs of `reset` (spec/70_reset_and_hazards.md R300): the open parameters `RESET_A` to `RESET_C`
(D11) and the optional `RESET_PC_OVERRIDE` (D10). -/
structure ResetInputs where
  a : Byte
  x : Byte
  y : Byte
  sp : Byte
  n : Bool
  v : Bool
  d : Bool
  z : Bool
  c : Bool
  pcOverride : Option Addr
  deriving DecidableEq, Repr

end Sys2Proof
end

