-- ==== Sys2Proof/Machine/Defaults.lean ====
section
/-! DEFINITION. The values this model names where the spec gives a default, a convention or nothing: the parameter
defaults, the reset inputs of State.reset, what an unlisted byte reads as, and the fixed addresses of
spec/20_memory.md R64. -/

namespace Sys2Proof.Machine

/-- The spec's default parameters: `next_instruction`, page wrap, and the table of opcode_table.json (spec/00_scope.md
R10, D5, D6, D12). Log entry 5. -/
def defaultParams : Params where
  returnConvention := .nextInstruction
  jmpIndirectPageWrap := true
  cycleTable := []

/-- The inputs with which State.reset is reset: the conventional harness values of R36 and R301,
A = X = Y = 0x00, SP = 0xFD, N = V = D = Z = C = 0, and no PC override. The spec leaves them open (D11).
PRESUMED, unsafe: a statement about State.reset that rests on them is about this harness only (log entry 2). -/
def defaultResetInputs : ResetInputs where
  a := 0x00
  x := 0x00
  y := 0x00
  sp := 0xFD
  n := false
  v := false
  d := false
  z := false
  c := false
  pcOverride := none

/-- What a byte of memory that is not listed reads as. The spec calls an unpopulated byte an arbitrary value and
excludes reading it by a launch premise (R71, D20). DESIGN CHOICE, unsafe (log entry 1). -/
def unlistedByte : Byte := 0x00

/-- The first address of the stack page, page 0x01 (R25, D4). -/
def stackBase : Addr := 0x0100

/-- The address of the reset vector's low byte (R64, D10). -/
def resetVector : Addr := 0xFFFC

/-- The address of the BRK vector's low byte (R64, D15). -/
def breakVector : Addr := 0xFFFE

end Sys2Proof.Machine
end

