-- ==== Sys2Proof/Machine/State.lean ====
section
/-! DEFINITION. The architectural state (spec/10_state.md R20), the outputs of a step (spec/00_scope.md R5, R8) and
the parameters fixed for a run (R10), as plain data; the outcomes' reason types; the state after reset. -/

namespace Sys2Proof.Machine

/-- The six status flags (R27); `true` is 1. There is no B flag and no state for bits 5 and 4 (R32). -/
structure Flags where
  /-- Negative -/
  n : Bool
  /-- Overflow -/
  v : Bool
  /-- Decimal: stored only, read by no computation (R29, D8) -/
  d : Bool
  /-- InterruptDisable: stored only, the core has no interrupt input (R29, D14) -/
  i : Bool
  /-- Zero -/
  z : Bool
  /-- Carry -/
  c : Bool
  deriving DecidableEq, Repr

/-- An event `UnknownOpcode(addr, byte)` of the diagnostic log (R8, D21). -/
structure LogEvent where
  addr : Addr
  byte : Byte
  deriving DecidableEq, Repr

/-- The core between two steps. -/
structure State where
  /-- accumulator (R22) -/
  a : Byte
  /-- index register X (R23) -/
  x : Byte
  /-- index register Y (R24) -/
  y : Byte
  /-- stack pointer, an offset into page 0x01 (R25) -/
  sp : Byte
  /-- program counter: the address of the next opcode byte (R26) -/
  pc : Addr
  /-- the six status flags (R27) -/
  flags : Flags
  /-- the memory image behind the bus (R50) -/
  mem : Memory
  /-- output: the diagnostic log, oldest event first (R8); no rule reads it (log entry 8) -/
  log : List LogEvent
  /-- output: the count the last step returned (R5); no rule reads it (log entry 7) -/
  cycles : Nat
  /-- the selectable parameters of R10, fixed for the run (log entry 5) -/
  params : Params
  deriving DecidableEq, Repr

/-- The reasons a step can stop with a fault: none. R270: no instruction, operand, address or data value makes a
step trap, fault, halt or abort. Nothing raises it; safe (log entry 13). -/
inductive Fault where
  deriving DecidableEq, Repr

/-- The reasons a step can be refused. -/
inductive Refusal where
  /-- An arm of exec whose instruction has no meaning yet. No arm of this model raises it; safe. -/
  | notModelled (mnemonic : String)
  deriving DecidableEq, Repr

/-- The machine right after reset (R36, R300, R301): I set, PC from the reset vector, the log empty, and the open
registers at the harness values of `defaultResetInputs` (log entry 2). No memory is listed: INITIAL_MEMORY is open
and the loader's (D13). -/
def State.reset : State where
  a := defaultResetInputs.a
  x := defaultResetInputs.x
  y := defaultResetInputs.y
  sp := defaultResetInputs.sp
  pc := wordOf (Memory.read [] (resetVector + 1).toNat) (Memory.read [] resetVector.toNat)
  flags :=
    { n := defaultResetInputs.n, v := defaultResetInputs.v, d := defaultResetInputs.d,
      i := true, z := defaultResetInputs.z, c := defaultResetInputs.c }
  mem := []
  log := []
  cycles := 0
  params := defaultParams

end Sys2Proof.Machine
end

