-- ==== Sys2Proof/Machine/Flags.lean ====
section
/-! DEFINITION. The flags byte and every flag computation (spec/10_state.md R27 to R31, spec/41_alu.md R131, R132,
spec/43_compare_branch.md R170). -/

namespace Sys2Proof.Machine

/-- `setNZ(r)` (R27). -/
def Flags.setNZ (f : Flags) (r : Byte) : Flags := { f with n := r[7], z := r == 0x00 }

/-- `PackFlags()` (R30): N V 1 1 D I Z C, bits 7 to 0. -/
def Flags.pack (f : Flags) : Byte :=
  (if f.n then 0x80 else 0x00) ||| (if f.v then 0x40 else 0x00) ||| 0x20 ||| 0x10 |||
  (if f.d then 0x08 else 0x00) ||| (if f.i then 0x04 else 0x00) |||
  (if f.z then 0x02 else 0x00) ||| (if f.c then 0x01 else 0x00)

/-- The flags of a pulled byte (R31); bits 5 and 4 are ignored. -/
def Flags.unpack (b : Byte) : Flags :=
  { n := b[7], v := b[6], d := b[3], i := b[2], z := b[1], c := b[0] }

/-- The exact sum `A + M + C` of ADC, 0 to 511 (R131). -/
def addSum (a m : Byte) (c : Bool) : Nat := a.toNat + m.toNat + c.toNat

/-- `V` of ADC: `((t ^ A) & (t ^ M) & 0x80) != 0` (R131). -/
def addOverflow (a m : Byte) (c : Bool) : Bool :=
  (((addSum a m c ^^^ a.toNat) &&& (addSum a m c ^^^ m.toNat)) &&& 0x80) != 0

/-- `C` of ADC: `t > 0xFF` (R131). -/
def addCarry (a m : Byte) (c : Bool) : Bool := decide (addSum a m c > 0xFF)

/-- `t mod 256` (R131). -/
def addByte (a m : Byte) (c : Bool) : Byte := BitVec.ofNat 8 (addSum a m c)

/-- The flags after ADC of `m` to `a` (R131): V, C, N and Z. -/
def Flags.afterAdd (f : Flags) (a m : Byte) : Flags :=
  { f with v := addOverflow a m f.c, c := addCarry a m f.c }.setNZ (addByte a m f.c)

/-- The flags after comparing `reg` with `m` (R170): C, Z and N. -/
def Flags.afterCompare (f : Flags) (reg m : Byte) : Flags :=
  { f with c := decide (reg.toNat ≥ m.toNat), z := reg == m, n := (reg - m)[7] }

/-- The flags after BIT (R136): Z from `A & M`, N and V from `M`. -/
def Flags.afterBit (f : Flags) (a m : Byte) : Flags :=
  { f with z := (a &&& m) == 0x00, n := m[7], v := m[6] }

end Sys2Proof.Machine
end

