-- ==== Sys2Proof/Machine/Ops.lean ====
section
/-! DEFINITION. The named operations over registers and memory: bus reads and writes (spec/20_memory.md R50, R55 to
R57), the stack (R60, R61), taking the one trap and returning from it (spec/47_system.md R260, R261,
spec/60_exceptions.md R275, R276), and the end of an instruction (spec/40_step_and_addressing.md R100). -/

namespace Sys2Proof.Machine

/-! ## Registers -/

def State.setA (s : State) (v : Byte) : State := { s with a := v }
def State.setX (s : State) (v : Byte) : State := { s with x := v }
def State.setY (s : State) (v : Byte) : State := { s with y := v }
def State.setSp (s : State) (v : Byte) : State := { s with sp := v }
def State.setPc (s : State) (v : Addr) : State := { s with pc := v }
def State.setFlags (s : State) (f : Flags) : State := { s with flags := f }
def State.setMem (s : State) (m : Memory) : State := { s with mem := m }
def State.setCycles (s : State) (n : Nat) : State := { s with cycles := n }

/-- `emit UnknownOpcode(addr, byte)` (R8): the log is append-only. -/
def State.emit (s : State) (e : LogEvent) : State := { s with log := s.log ++ [e] }

/-- `setNZ(r)` (R27). -/
def State.setNZ (s : State) (r : Byte) : State := s.setFlags (s.flags.setNZ r)

/-! ## The bus -/

/-- `MemRead(a, 1)` (R50). -/
def State.memRead (s : State) (a : Addr) : Byte := s.mem.read a.toNat

/-- `MemWrite(a, 1, v)` (R50): every address is writable (R53). -/
def State.memWrite (s : State) (a : Addr) (v : Byte) : State := s.setMem (s.mem.write a.toNat v)

/-- `MemRead16(a)` (R55): two byte reads, the high byte's address wrapping mod 65536. -/
def State.memRead16 (s : State) (a : Addr) : Addr := wordOf (s.memRead (a + 1)) (s.memRead a)

/-- `MemRead16ZP(z)` (R56): the high byte's address wraps mod 256. -/
def State.memRead16ZP (s : State) (z : Byte) : Addr := wordOf (s.memRead (zext16 (z + 1))) (s.memRead (zext16 z))

/-- The address `(a & 0xFF00) | ((a + 1) & 0x00FF)` of a page-wrapped pointer's high byte (R57). -/
def pageWrapNext (a : Addr) : Addr := (a &&& 0xFF00) ||| ((a + 1) &&& 0x00FF)

/-- `MemRead16PageWrap(a)` (R57). -/
def State.memRead16PageWrap (s : State) (a : Addr) : Addr := wordOf (s.memRead (pageWrapNext a)) (s.memRead a)

/-! ## The stack -/

/-- The address `0x0100 + SP` (R25). -/
def stackAddr (sp : Byte) : Addr := stackBase + zext16 sp

/-- `Push(v)` (R60): writes, then decrements SP mod 256. -/
def State.push (s : State) (v : Byte) : State := (s.memWrite (stackAddr s.sp) v).setSp (s.sp - 1)

/-- The byte `Pull()` returns (R61): the one at `0x0100 + ((SP + 1) mod 256)`. -/
def State.pulled (s : State) : Byte := s.memRead (stackAddr (s.sp + 1))

/-- The state after `Pull()` (R61). -/
def State.pull (s : State) : State := s.setSp (s.sp + 1)

/-- `Push` of a word's high byte, then of its low byte (R192, R260). -/
def State.pushWord (s : State) (w : Addr) : State := (s.push (highByte w)).push (lowByte w)

/-- The word of two pulled bytes, the low byte pulled first (R193, R261). -/
def State.pulledWord (s : State) : Addr := wordOf s.pull.pulled s.pulled

/-! ## The end of an instruction -/

/-- PC goes to `target` and the step returns `n` cycles (R100). -/
def State.finishAt (s : State) (target : Addr) (n : Nat) : State := (s.setPc target).setCycles n

/-- PC advances past an instruction of `len` bytes (R120) and the step returns `n` cycles. -/
def State.advance (s : State) (len n : Nat) : State := s.finishAt (s.pc + BitVec.ofNat 16 len) n

/-! ## The trap and its return -/

/-- Taking the trap (R260, R275): `ret`, then the flags byte with the old I, are pushed; I is set and no other flag
changes; PC is loaded from the vector. PC on entry is the address of the trapping opcode. -/
def State.takeBreak (s : State) : State :=
  let pushed := (s.pushWord (s.pc + 2)).push s.flags.pack
  let entered := pushed.setFlags { pushed.flags with i := true }
  entered.setPc (entered.memRead16 breakVector)

/-- Returning from the trap (R261, R276): the flags byte is pulled, then PC, with no 1 added. -/
def State.returnFromBreak (s : State) : State :=
  let restored := s.pull.setFlags (Flags.unpack s.pulled)
  restored.pull.pull.setPc restored.pulledWord

end Sys2Proof.Machine
end

