-- ==== Sys2Proof/Machine/Operands.lean ====
section
/-! DEFINITION. The addressing-mode resolver (spec/40_step_and_addressing.md R101 to R115) and the operand reads
(R116). The operand bytes come with the instruction: they are the ones the step fetched (log entry 11). -/

namespace Sys2Proof.Machine

/-- What the resolver returns (R101): the effective address and the page-cross signal. -/
structure Resolved where
  ea : Addr
  crossed : Bool
  deriving DecidableEq, Repr

/-- `(base & 0x00FF) + index > 0xFF` (R115). -/
def pageCrossed (base : Addr) (index : Byte) : Bool := decide ((base &&& 0x00FF).toNat + index.toNat > 0xFF)

/-- An indexed access: `(base + index) mod 2^16` and whether it crosses a page (R109, R110, R112). -/
def indexed (base : Addr) (index : Byte) : Resolved := ⟨base + zext16 index, pageCrossed base index⟩

/-- The pointer's zero-page address of `($zz,X)`: `(b1 + X) mod 256` (R111). -/
def State.indexedPointer (s : State) (b1 : Byte) : Byte := b1 + s.x

/-- `Resolve(mode)` for the memory modes (R105 to R112), the same for every instruction (log entry 14). -/
def MemMode.resolve (s : State) : MemMode → Resolved
  | .zp b1 => ⟨zext16 b1, false⟩
  | .zpX b1 => ⟨zext16 (b1 + s.x), false⟩
  | .zpY b1 => ⟨zext16 (b1 + s.y), false⟩
  | .abs base => ⟨base, false⟩
  | .absX base => indexed base s.x
  | .absY base => indexed base s.y
  | .indX b1 => ⟨s.memRead16ZP (s.indexedPointer b1), false⟩
  | .indY b1 => indexed (s.memRead16ZP b1) s.y

/-- The effective address of a memory operand. -/
def effAddr (s : State) (m : MemMode) : Addr := (MemMode.resolve s m).ea

/-- The operand `M` of a read-class instruction (R104, R116). -/
def readValue (s : State) : ReadOp → Byte
  | .imm v => v
  | .mem m => s.memRead (effAddr s m)

/-- The page-cross signal of a read operand (R101, R104). -/
def readCrossed (s : State) : ReadOp → Bool
  | .imm _ => false
  | .mem m => (MemMode.resolve s m).crossed

/-- The target of JMP indirect (R113, R191): the pointer read that `JMP_INDIRECT_PAGE_WRAP` selects. -/
def indirectTarget (s : State) (ptr : Addr) : Addr :=
  if s.params.jmpIndirectPageWrap then s.memRead16PageWrap ptr else s.memRead16 ptr

/-- The address of the next instruction after a branch: `(pc0 + 2) mod 2^16` (R114). -/
def branchNext (s : State) : Addr := s.pc + 2

/-- A branch's target: `(next + sext_16(b1)) mod 2^16` (R114). -/
def branchTarget (s : State) (b1 : Byte) : Addr := branchNext s + sext16 b1

end Sys2Proof.Machine
end

