-- ==== Sys2Proof/Machine/Cycles.lean ====
section
/-! DEFINITION. The cycle counts: the default CYCLE_TABLE by operation class and mode, the table in force, and the
penalties (spec/40_step_and_addressing.md R117, R118, spec/43_compare_branch.md R173). Log entry 6. -/

namespace Sys2Proof.Machine

/-- Default base cost of a read-class instruction on a memory operand (R118). -/
def MemMode.readCycles : MemMode → Nat
  | .zp _ => 3
  | .zpX _ | .zpY _ => 4
  | .abs _ | .absX _ | .absY _ => 4
  | .indX _ => 6
  | .indY _ => 5

/-- Default base cost of a read-class instruction (R118). -/
def ReadOp.baseCycles : ReadOp → Nat
  | .imm _ => 2
  | .mem m => MemMode.readCycles m

/-- Page-penalty eligibility of a read-class instruction (R117). -/
def ReadOp.pagePenalty : ReadOp → Bool
  | .mem (.absX _) | .mem (.absY _) | .mem (.indY _) => true
  | _ => false

/-- Default base cost of a store (R118): fixed, whether or not the access crosses a page. -/
def MemMode.storeCycles : MemMode → Nat
  | .zp _ => 3
  | .zpX _ | .zpY _ => 4
  | .abs _ => 4
  | .absX _ | .absY _ => 5
  | .indX _ | .indY _ => 6

/-- Default base cost of a read-modify-write instruction on memory (R118): fixed, whether or not the access crosses. -/
def RmwMode.cycles : RmwMode → Nat
  | .zp _ => 5
  | .zpX _ | .abs _ => 6
  | .absX _ => 7

/-- Default base cost of a shift or rotate (R118). -/
def ShiftOp.cycles : ShiftOp → Nat
  | .acc => 2
  | .mem m => RmwMode.cycles m

/-- `base_cycles + (page_penalty and crossed ? 1 : 0)` (R117). -/
def withPenalty (base : Nat) (eligible crossed : Bool) : Nat := base + if eligible && crossed then 1 else 0

/-- Whether two addresses lie on different pages: `(a & 0xFF00) != (b & 0xFF00)` (R173). -/
def otherPage (a b : Addr) : Bool := (a &&& 0xFF00) != (b &&& 0xFF00)

/-- `branch_extra` of a taken branch (R173). -/
def takenExtra (target next : Addr) : Nat := 1 + if otherPage target next then 1 else 0

/-- The default table (R118): "cycles" of the instruction's row of spec/opcode_table.json. -/
def defaultCycles : Instr → Nat
  | .adc r | .sbc r | .and r | .ora r | .eor r | .bit r | .lda r | .ldx r | .ldy r | .cmp r | .cpx r | .cpy r =>
    ReadOp.baseCycles r
  | .sta m | .stx m | .sty m => MemMode.storeCycles m
  | .asl o | .lsr o | .rol o | .ror o => ShiftOp.cycles o
  | .inc m | .dec m => RmwMode.cycles m
  | .inx | .iny | .dex | .dey | .tax | .tay | .txa | .tya | .tsx | .txs => 2
  | .clc | .cld | .cli | .clv | .sec | .sed | .sei | .nop => 2
  | .bpl _ | .bmi _ | .bvc _ | .bvs _ | .bcc _ | .bcs _ | .bne _ | .beq _ => 2
  | .jmp _ => 3
  | .jmpInd _ => 5
  | .jsr _ | .rts | .rti => 6
  | .pha | .php => 3
  | .pla | .plp => 4
  | .brk => 7
  | .unrecognized _ => 2

/-- The descriptor's page-penalty eligibility (R84, R117): "page_penalty" of the row. -/
def pagePenalty : Instr → Bool
  | .adc r | .sbc r | .and r | .ora r | .eor r | .bit r | .lda r | .ldx r | .ldy r | .cmp r | .cpx r | .cpy r =>
    ReadOp.pagePenalty r
  | _ => false

/-- The count a cycle table gives a row whose default is `dflt`. -/
def cycleEntry : CycleTable → Byte → Nat → Nat
  | [], _, dflt => dflt
  | (k, n) :: rest, op, dflt => if k = op then n else cycleEntry rest op dflt

/-- The count of row `op`, whose default is `dflt`, in the `CYCLE_TABLE` in force. -/
def tableCycles (p : Params) (op : Byte) (dflt : Nat) : Nat := cycleEntry p.cycleTable op dflt

/-- `base_cycles` (R84, R117): the instruction's row of the `CYCLE_TABLE` in force. An unrecognized opcode has no
descriptor, and costs 2 whatever the table holds (R117, R225). -/
def baseCycles (p : Params) : Instr → Nat
  | .unrecognized _ => 2
  | i =>
    match i.opcode with
    | some op => tableCycles p op (defaultCycles i)
    | none => defaultCycles i

/-- The cost of a read-class instruction `i` with operand `r` (R117). -/
def readCost (s : State) (i : Instr) (r : ReadOp) : Nat :=
  withPenalty (baseCycles s.params i) (ReadOp.pagePenalty r) (readCrossed s r)

end Sys2Proof.Machine
end

