-- ==== Sys2Proof/Machine/Alu.lean ====
section
/-! DEFINITION. ADC, SBC, AND, ORA, EOR, BIT (spec/41_alu.md R130 to R136), and the shared shape of a read-class
instruction (spec/40_step_and_addressing.md R116). -/

namespace Sys2Proof.Machine

/-- A read-class instruction `i` (R116): `f` is given the operand `M` and the state; then PC advances past the operand. -/
def readThen (i : Instr) (r : ReadOp) (f : Byte → State → State) (s : State) : Host.Outcome State Fault Refusal :=
  .next ((f (readValue s r) s).advance r.mode.length (readCost s i r))

/-- `A <- v; setNZ(A)`. -/
def State.loadA (s : State) (v : Byte) : State := (s.setA v).setNZ v

/-- The add of R131: `A <- t mod 256` with V, C, N and Z from `t = A + m + C`. D is not read (R130). -/
def State.addToA (s : State) (m : Byte) : State :=
  (s.setA (addByte s.a m s.flags.c)).setFlags (s.flags.afterAdd s.a m)

/-- ADC (R131). -/
def execAdc (r : ReadOp) (s : State) : Host.Outcome State Fault Refusal := readThen (.adc r) r (fun m s => s.addToA m) s

/-- SBC (R132): the add of R131 applied to `0xFF ^ M`. -/
def execSbc (r : ReadOp) (s : State) : Host.Outcome State Fault Refusal := 
  readThen (.sbc r) r (fun m s => s.addToA (0xFF ^^^ m)) s

/-- AND (R133). -/
def execAnd (r : ReadOp) (s : State) : Host.Outcome State Fault Refusal := 
  readThen (.and r) r (fun m s => s.loadA (s.a &&& m)) s

/-- ORA (R134). -/
def execOra (r : ReadOp) (s : State) : Host.Outcome State Fault Refusal := 
  readThen (.ora r) r (fun m s => s.loadA (s.a ||| m)) s

/-- EOR (R135). -/
def execEor (r : ReadOp) (s : State) : Host.Outcome State Fault Refusal := 
  readThen (.eor r) r (fun m s => s.loadA (s.a ^^^ m)) s

/-- BIT (R136): A is not written. -/
def execBit (r : ReadOp) (s : State) : Host.Outcome State Fault Refusal :=
  readThen (.bit r) r (fun m s => s.setFlags (s.flags.afterBit s.a m)) s

end Sys2Proof.Machine
end

