-- ==== Sys2Proof/Machine/Branch.lean ====
section
/-! DEFINITION. The eight conditional branches (spec/43_compare_branch.md R173 to R182). -/

namespace Sys2Proof.Machine

/-- The branch family (R173): only PC is written. The 2 of R173 is the base cost of branch `i` (R117, R118). -/
def branchIf (i : Instr) (cond : Bool) (b1 : Byte) (s : State) : Host.Outcome State Fault Refusal :=
  let base := baseCycles s.params i
  if cond then .next (s.finishAt (branchTarget s b1) (base + takenExtra (branchTarget s b1) (branchNext s)))
  else .next (s.finishAt (branchNext s) base)

/-- BPL: taken when N = 0 (R174). -/
def execBpl (b1 : Byte) (s : State) : Host.Outcome State Fault Refusal :=
  branchIf (.bpl b1) (!s.flags.n) b1 s

/-- BMI: taken when N = 1 (R175). -/
def execBmi (b1 : Byte) (s : State) : Host.Outcome State Fault Refusal :=
  branchIf (.bmi b1) s.flags.n b1 s

/-- BVC: taken when V = 0 (R176). -/
def execBvc (b1 : Byte) (s : State) : Host.Outcome State Fault Refusal :=
  branchIf (.bvc b1) (!s.flags.v) b1 s

/-- BVS: taken when V = 1 (R177). -/
def execBvs (b1 : Byte) (s : State) : Host.Outcome State Fault Refusal :=
  branchIf (.bvs b1) s.flags.v b1 s

/-- BCC: taken when C = 0 (R178). -/
def execBcc (b1 : Byte) (s : State) : Host.Outcome State Fault Refusal :=
  branchIf (.bcc b1) (!s.flags.c) b1 s

/-- BCS: taken when C = 1 (R179). -/
def execBcs (b1 : Byte) (s : State) : Host.Outcome State Fault Refusal :=
  branchIf (.bcs b1) s.flags.c b1 s

/-- BNE: taken when Z = 0 (R180). -/
def execBne (b1 : Byte) (s : State) : Host.Outcome State Fault Refusal :=
  branchIf (.bne b1) (!s.flags.z) b1 s

/-- BEQ: taken when Z = 1 (R181). -/
def execBeq (b1 : Byte) (s : State) : Host.Outcome State Fault Refusal :=
  branchIf (.beq b1) s.flags.z b1 s

end Sys2Proof.Machine
end

