-- ==== Sys2Proof/Machine/Compare.lean ====
section
/-! DEFINITION. CMP, CPX, CPY (spec/43_compare_branch.md R170 to R172): no register and no memory is written. -/

namespace Sys2Proof.Machine

/-- CMP (R170). -/
def execCmp (r : ReadOp) (s : State) : Host.Outcome State Fault Refusal :=
  readThen (.cmp r) r (fun m s => s.setFlags (s.flags.afterCompare s.a m)) s

/-- CPX (R171). -/
def execCpx (r : ReadOp) (s : State) : Host.Outcome State Fault Refusal :=
  readThen (.cpx r) r (fun m s => s.setFlags (s.flags.afterCompare s.x m)) s

/-- CPY (R172). -/
def execCpy (r : ReadOp) (s : State) : Host.Outcome State Fault Refusal :=
  readThen (.cpy r) r (fun m s => s.setFlags (s.flags.afterCompare s.y m)) s

end Sys2Proof.Machine
end

