-- ==== Sys2Proof/Machine/LoadStore.lean ====
section
/-! DEFINITION. LDA, LDX, LDY, STA, STX, STY (spec/46_load_store.md R240 to R245). -/

namespace Sys2Proof.Machine

/-- `X <- v; setNZ(X)`. -/
def State.loadX (s : State) (v : Byte) : State := (s.setX v).setNZ v

/-- `Y <- v; setNZ(Y)`. -/
def State.loadY (s : State) (v : Byte) : State := (s.setY v).setNZ v

/-- A store `i` (R116): one byte written at `ea`, nothing read there, no flag written. -/
def storeByte (i : Instr) (m : MemMode) (v : Byte) (s : State) : Host.Outcome State Fault Refusal :=
  .next ((s.memWrite (effAddr s m) v).advance m.mode.length (baseCycles s.params i))

/-- LDA (R240). -/
def execLda (r : ReadOp) (s : State) : Host.Outcome State Fault Refusal := readThen (.lda r) r (fun m s => s.loadA m) s

/-- LDX (R241). -/
def execLdx (r : ReadOp) (s : State) : Host.Outcome State Fault Refusal := readThen (.ldx r) r (fun m s => s.loadX m) s

/-- LDY (R242). -/
def execLdy (r : ReadOp) (s : State) : Host.Outcome State Fault Refusal := readThen (.ldy r) r (fun m s => s.loadY m) s

/-- STA (R243). -/
def execSta (m : MemMode) (s : State) : Host.Outcome State Fault Refusal := storeByte (.sta m) m s.a s

/-- STX (R244). -/
def execStx (m : MemMode) (s : State) : Host.Outcome State Fault Refusal := storeByte (.stx m) m s.x s

/-- STY (R245). -/
def execSty (m : MemMode) (s : State) : Host.Outcome State Fault Refusal := storeByte (.sty m) m s.y s

end Sys2Proof.Machine
end

