-- ==== Sys2Proof/Machine/Shift.lean ====
section
/-! DEFINITION. Shifts, rotates, increments and decrements (spec/42_shift_incdec.md R150 to R159). -/

namespace Sys2Proof.Machine

/-- A shift's result: the byte and the bit shifted out. -/
structure Shifted where
  result : Byte
  out : Bool
  deriving DecidableEq, Repr

/-- ASL (R150): `C <- v[7]`, `r <- (v << 1) mod 256`. -/
def shiftLeft (v : Byte) (_c : Bool) : Shifted := ⟨v <<< 1, v[7]⟩

/-- LSR (R151): `C <- v[0]`, `r <- v >> 1`. -/
def shiftRight (v : Byte) (_c : Bool) : Shifted := ⟨v >>> 1, v[0]⟩

/-- ROL (R152): `C <- v[7]`, `r <- ((v << 1) mod 256) | c_old`. -/
def rotateLeft (v : Byte) (c : Bool) : Shifted := ⟨(v <<< 1) ||| (if c then 0x01 else 0x00), v[7]⟩

/-- ROR (R153): `C <- v[0]`, `r <- (v >> 1) | (c_old << 7)`. -/
def rotateRight (v : Byte) (c : Bool) : Shifted := ⟨(v >>> 1) ||| (if c then 0x80 else 0x00), v[0]⟩

/-- The value a shift operand holds (R103, R116). -/
def shiftValue (s : State) : ShiftOp → Byte
  | .acc => s.a
  | .mem m => s.memRead (effAddr s m.toMem)

/-- Writing a shift's result back: to A, or to `ea` (R150). -/
def State.writeBack (s : State) (r : Byte) : ShiftOp → State
  | .acc => s.setA r
  | .mem m => s.memWrite (effAddr s m.toMem) r

/-- The flags after a shift: C is the bit shifted out, N and Z come from the result; V, D and I stay. -/
def Flags.afterShift (f : Flags) (r : Shifted) : Flags := { f with c := r.out }.setNZ r.result

/-- The common shape of the shifts and rotates (R150 to R153). -/
def shiftWith (i : Instr) (f : Byte → Bool → Shifted) (o : ShiftOp) (s : State) : Host.Outcome State Fault Refusal :=
  let r := f (shiftValue s o) s.flags.c
  .next (((s.writeBack r.result o).setFlags (s.flags.afterShift r)).advance o.mode.length (baseCycles s.params i))

/-- The common shape of INC and DEC (R154, R155): `ea` is read once and written once. -/
def modifyMem (i : Instr) (f : Byte → Byte) (m : RmwMode) (s : State) : Host.Outcome State Fault Refusal :=
  let r := f (s.memRead (effAddr s m.toMem))
  .next (((s.memWrite (effAddr s m.toMem) r).setNZ r).advance m.toMem.mode.length (baseCycles s.params i))

/-- The end of an implied instruction `i`, its other effects being in `s`: PC goes to `pc0 + 1` (R120), at its base cost. -/
def implied (i : Instr) (s : State) : Host.Outcome State Fault Refusal :=
  .next (s.advance Mode.implied.length (baseCycles s.params i))

/-- ASL (R150). -/
def execAsl (o : ShiftOp) (s : State) : Host.Outcome State Fault Refusal := shiftWith (.asl o) shiftLeft o s

/-- LSR (R151). -/
def execLsr (o : ShiftOp) (s : State) : Host.Outcome State Fault Refusal := shiftWith (.lsr o) shiftRight o s

/-- ROL (R152). -/
def execRol (o : ShiftOp) (s : State) : Host.Outcome State Fault Refusal := shiftWith (.rol o) rotateLeft o s

/-- ROR (R153). -/
def execRor (o : ShiftOp) (s : State) : Host.Outcome State Fault Refusal := shiftWith (.ror o) rotateRight o s

/-- INC (R154). -/
def execInc (m : RmwMode) (s : State) : Host.Outcome State Fault Refusal := modifyMem (.inc m) (fun v => v + 1) m s

/-- DEC (R155). -/
def execDec (m : RmwMode) (s : State) : Host.Outcome State Fault Refusal := modifyMem (.dec m) (fun v => v - 1) m s

/-- INX (R156). -/
def execInx (s : State) : Host.Outcome State Fault Refusal := implied .inx (s.loadX (s.x + 1))

/-- INY (R157). -/
def execIny (s : State) : Host.Outcome State Fault Refusal := implied .iny (s.loadY (s.y + 1))

/-- DEX (R158). -/
def execDex (s : State) : Host.Outcome State Fault Refusal := implied .dex (s.loadX (s.x - 1))

/-- DEY (R159). -/
def execDey (s : State) : Host.Outcome State Fault Refusal := implied .dey (s.loadY (s.y - 1))

end Sys2Proof.Machine
end

