-- ==== Sys2Proof/Machine/FlagOps.lean ====
section
/-! DEFINITION. The flag operations, NOP and the unrecognized opcodes (spec/45_transfer_flag_nop.md R216 to R225). -/

namespace Sys2Proof.Machine

/-- CLC (R216). -/
def execClc (s : State) : Host.Outcome State Fault Refusal := implied .clc (s.setFlags { s.flags with c := false })

/-- CLD (R217). -/
def execCld (s : State) : Host.Outcome State Fault Refusal := implied .cld (s.setFlags { s.flags with d := false })

/-- CLI (R218): I masks no input. -/
def execCli (s : State) : Host.Outcome State Fault Refusal := implied .cli (s.setFlags { s.flags with i := false })

/-- CLV (R219). -/
def execClv (s : State) : Host.Outcome State Fault Refusal := implied .clv (s.setFlags { s.flags with v := false })

/-- SEC (R220). -/
def execSec (s : State) : Host.Outcome State Fault Refusal := implied .sec (s.setFlags { s.flags with c := true })

/-- SED (R221): ADC and SBC stay binary. -/
def execSed (s : State) : Host.Outcome State Fault Refusal := implied .sed (s.setFlags { s.flags with d := true })

/-- SEI (R222). -/
def execSei (s : State) : Host.Outcome State Fault Refusal := implied .sei (s.setFlags { s.flags with i := true })

/-- NOP (R224): only PC changes, and no event is logged. -/
def execNop (s : State) : Host.Outcome State Fault Refusal := implied .nop s

/-- An unrecognized opcode (R225): one byte, 2 cycles, one event `UnknownOpcode(pc0, op)`, and no other change. -/
def execUnrecognized (op : Byte) (s : State) : Host.Outcome State Fault Refusal :=
  implied (.unrecognized op) (s.emit ⟨s.pc, op⟩)

end Sys2Proof.Machine
end

