-- ==== Sys2Proof/Machine/Jump.lean ====
section
/-! DEFINITION. JMP, JSR, RTS (spec/44_jump_stack.md R190 to R193). -/

namespace Sys2Proof.Machine

/-- The return address JSR pushes (R192): `pc0 + 3`, or `pc0 + 2` under `nmos_last_byte`. -/
def returnAddress (s : State) : Addr :=
  match s.params.returnConvention with
  | .nextInstruction => s.pc + 3
  | .nmosLastByte => s.pc + 2

/-- Where RTS goes with the word it pulled (R193): there, or one past it under `nmos_last_byte`. -/
def returnTarget (s : State) (w : Addr) : Addr :=
  match s.params.returnConvention with
  | .nextInstruction => w
  | .nmosLastByte => w + 1

/-- JMP absolute (R190): nothing is read at the target. -/
def execJmp (target : Addr) (s : State) : Host.Outcome State Fault Refusal :=
  .next (s.finishAt target (baseCycles s.params (.jmp target)))

/-- JMP indirect (R191). -/
def execJmpInd (ptr : Addr) (s : State) : Host.Outcome State Fault Refusal :=
  .next (s.finishAt (indirectTarget s ptr) (baseCycles s.params (.jmpInd ptr)))

/-- JSR (R192): the target was resolved before either push. -/
def execJsr (target : Addr) (s : State) : Host.Outcome State Fault Refusal :=
  .next ((s.pushWord (returnAddress s)).finishAt target (baseCycles s.params (.jsr target)))

/-- RTS (R193). -/
def execRts (s : State) : Host.Outcome State Fault Refusal :=
  .next (s.pull.pull.finishAt (returnTarget s s.pulledWord) (baseCycles s.params .rts))

end Sys2Proof.Machine
end

