-- ==== Sys2Proof/Machine/Stack.lean ====
section
/-! DEFINITION. PHA, PHP, PLP, PLA (spec/44_jump_stack.md R195 to R198). -/

namespace Sys2Proof.Machine

/-- PHA (R195). -/
def execPha (s : State) : Host.Outcome State Fault Refusal := implied .pha (s.push s.a)

/-- PHP (R196): bits 5 and 4 of the pushed byte are set. -/
def execPhp (s : State) : Host.Outcome State Fault Refusal := implied .php (s.push s.flags.pack)

/-- PLP (R197): bits 5 and 4 of the pulled byte are ignored. -/
def execPlp (s : State) : Host.Outcome State Fault Refusal := implied .plp (s.pull.setFlags (Flags.unpack s.pulled))

/-- PLA (R198). -/
def execPla (s : State) : Host.Outcome State Fault Refusal := implied .pla (s.pull.loadA s.pulled)

end Sys2Proof.Machine
end

