-- ==== Sys2Proof/Machine/System.lean ====
section
/-! DEFINITION. BRK and RTI (spec/47_system.md R260, R261). -/

namespace Sys2Proof.Machine

/-- BRK (R260): it takes the trap, whatever I holds. -/
def execBrk (s : State) : Host.Outcome State Fault Refusal := .next (s.takeBreak.setCycles (baseCycles s.params .brk))

/-- RTI (R261). -/
def execRti (s : State) : Host.Outcome State Fault Refusal := .next (s.returnFromBreak.setCycles (baseCycles s.params .rti))

end Sys2Proof.Machine
end

