-- ==== Sys2Proof/Machine/Transfer.lean ====
section
/-! DEFINITION. The register transfers (spec/45_transfer_flag_nop.md R210 to R215). -/

namespace Sys2Proof.Machine

/-- TAX (R210). -/
def execTax (s : State) : Host.Outcome State Fault Refusal := implied .tax (s.loadX s.a)

/-- TAY (R211). -/
def execTay (s : State) : Host.Outcome State Fault Refusal := implied .tay (s.loadY s.a)

/-- TXA (R212). -/
def execTxa (s : State) : Host.Outcome State Fault Refusal := implied .txa (s.loadA s.x)

/-- TYA (R213). -/
def execTya (s : State) : Host.Outcome State Fault Refusal := implied .tya (s.loadA s.y)

/-- TSX (R214): X receives the 8-bit SP. -/
def execTsx (s : State) : Host.Outcome State Fault Refusal := implied .tsx (s.loadX s.sp)

/-- TXS (R215): no flag is written. -/
def execTxs (s : State) : Host.Outcome State Fault Refusal := implied .txs (s.setSp s.x)

end Sys2Proof.Machine
end

