-- ==== Sys2Proof/Machine/Fetch.lean ====
section
/-! DEFINITION. Fetching an instruction (spec/40_step_and_addressing.md R100, spec/30_encoding.md R82): the opcode at
PC and its operand bytes after it, every address mod 65536. Placing one there, for the host. -/

namespace Sys2Proof.Machine

/-- The bytes at PC, as many as the longest instruction has. -/
def fetchBytes (s : State) : List Byte := [s.memRead s.pc, s.memRead (s.pc + 1), s.memRead (s.pc + 2)]

/-- The instruction at PC. It depends on as many of the three bytes as its mode has (R89, log entry 11). -/
def fetchInstr (s : State) : Instr := instrOf (s.memRead s.pc) (s.memRead (s.pc + 1)) (s.memRead (s.pc + 2))

/-- `s` with the bytes of a table word stored at PC: bits 7..0 at PC, bits 15..8 next, bits 23..16 after it. -/
def placeWord (s : State) (nbits w : Nat) : State :=
  let v := w % 2 ^ nbits
  ((s.memWrite s.pc (BitVec.ofNat 8 v)).memWrite (s.pc + 1) (BitVec.ofNat 8 (v / 256))).memWrite (s.pc + 2)
    (BitVec.ofNat 8 (v / 65536))

end Sys2Proof.Machine
end

