-- ==== Sys2Proof/Machine/Step.lean ====
section
/-! DEFINITION. One step (spec/40_step_and_addressing.md R100): fetch and decode the instruction at PC, execute it. -/

namespace Sys2Proof.Machine

/-- One invocation of `step` (R5, R100). -/
def step (s : State) : Host.Outcome State Fault Refusal := exec (fetchInstr s) s

/-- `s` with one instruction stored where the next step fetches it (log entry 4). -/
def State.withFetchWord (s : State) (nbits w : Nat) : State := placeWord s nbits w

end Sys2Proof.Machine
end

