-- ==== Sys2Proof/Machine/Reset.lean ====
section
/-! DEFINITION. The host's operations between steps (spec/60_exceptions.md R285): loading a memory image
(spec/70_reset_and_hazards.md R310) and `reset` (R300). They are operations of the host, not steps
(log entry 9). -/

namespace Sys2Proof.Machine

/-- The machine before the loader and the first reset (R302): nothing listed in memory, the log empty (R301). Its
registers have no meaning until `resetWith` sets every one of them. -/
def State.powerOn : State := State.reset

/-- The loader (R310): the bytes of INITIAL_MEMORY are written, each at its address mod 65536, in the order given
(log entry 12). -/
def loadImage (image : List Host.Cell) (s : State) : State :=
  match image with
  | [] => s
  | (a, v) :: rest => loadImage rest (s.memWrite (BitVec.ofNat 16 a) v)

/-- `reset` (R300). Memory, the log and the parameters stay; it returns no cycle count (R6, log entry 7). -/
def resetWith (r : ResetInputs) (s : State) : State :=
  { s with
    a := r.a, x := r.x, y := r.y, sp := r.sp
    flags := { n := r.n, v := r.v, d := r.d, i := true, z := r.z, c := r.c }
    pc := r.pcOverride.getD (s.memRead16 resetVector)
    cycles := 0 }

/-- Power-on, loader, reset: the state the first step of a run starts from (R302, R310). -/
def boot (p : Params) (image : List Host.Cell) (r : ResetInputs) : State :=
  resetWith r (loadImage image { State.powerOn with params := p })

end Sys2Proof.Machine
end

