-- ==== Sys2Proof/Safety.lean ====
section
/-! DEFINITION. What claims are stated in: the invariant, the accesses of a step (spec/20_memory.md R59), which
instruction writes which register and flag (spec/10_state.md R22 to R28), the launch premise
(spec/70_reset_and_hazards.md R311) and the end of a run (R312). -/

namespace Sys2Proof.Safety

open Sys2Proof.Machine

/-! ## The invariant -/

/-- What every step keeps: memory is in its canonical form, with every listed address inside the 16-bit space (R50),
and the log holds unrecognized opcodes only (R8). -/
def Inv (s : State) : Prop := Memory.wf s.mem = true ∧ ∀ e ∈ s.log, isUnrecognized e.byte = true

/-! ## The accesses of a step -/

/-- The pointer bytes a memory operand reads (R59, R111, R112). -/
def pointerReads (s : State) : MemMode → List Addr
  | .indX b1 => [zext16 (b1 + s.x), zext16 (b1 + s.x + 1)]
  | .indY b1 => [zext16 b1, zext16 (b1 + 1)]
  | _ => []

/-- The bytes a read-class instruction reads (R59): none for an immediate. -/
def operandReads (s : State) : ReadOp → List Addr
  | .imm _ => []
  | .mem m => pointerReads s m ++ [effAddr s m]

/-- The byte a shift reads (R59): none in the accumulator form. -/
def shiftReads (s : State) : ShiftOp → List Addr
  | .acc => []
  | .mem m => [effAddr s m.toMem]

/-- The bytes an instruction reads beyond its own opcode and operand bytes (R59). -/
def dataReads (s : State) : Instr → List Addr
  | .adc r | .sbc r | .and r | .ora r | .eor r | .bit r | .lda r | .ldx r | .ldy r | .cmp r | .cpx r | .cpy r =>
    operandReads s r
  | .sta m | .stx m | .sty m => pointerReads s m
  | .asl o | .lsr o | .rol o | .ror o => shiftReads s o
  | .inc m | .dec m => [effAddr s m.toMem]
  | .jmpInd ptr => [ptr, if s.params.jmpIndirectPageWrap then pageWrapNext ptr else ptr + 1]
  | .pla | .plp => [stackAddr (s.sp + 1)]
  | .rts => [stackAddr (s.sp + 1), stackAddr (s.sp + 2)]
  | .rti => [stackAddr (s.sp + 1), stackAddr (s.sp + 2), stackAddr (s.sp + 3)]
  | .brk => [breakVector, breakVector + 1]
  | _ => []

/-- The addresses an instruction stores to (R59), computed with the functions its meaning uses. -/
def storedAddrs (s : State) : Instr → List Addr
  | .sta m | .stx m | .sty m => [effAddr s m]
  | .inc m | .dec m => [effAddr s m.toMem]
  | .asl o | .lsr o | .rol o | .ror o => shiftReads s o
  | .pha | .php => [stackAddr s.sp]
  | .jsr _ => [stackAddr s.sp, stackAddr (s.sp - 1)]
  | .brk => [stackAddr s.sp, stackAddr (s.sp - 1), stackAddr (s.sp - 2)]
  | _ => []

/-- The addresses of the `n` bytes from `a`, each mod 65536 (R82). -/
def bytesFrom (a : Addr) : Nat → List Addr
  | 0 => []
  | n + 1 => a :: bytesFrom (a + 1) n

/-- Every address a step reads (R66): its instruction's bytes, then the data reads. -/
def stepReads (s : State) : List Addr := bytesFrom s.pc (fetchInstr s).length ++ dataReads s (fetchInstr s)

/-- Every address a step stores to. -/
def stepWrites (s : State) : List Addr := storedAddrs s (fetchInstr s)

/-- Two states hold the same byte at every address of the list. -/
def SameAt (as : List Addr) (s s' : State) : Prop := ∀ a ∈ as, s'.memRead a = s.memRead a

/-- Two states are the same but for their memories. -/
def SameButMemory (s s' : State) : Prop := s'.setMem s.mem = s

/-! ## Who writes what (R22 to R28) -/

/-- The writers of A (R22), with the accumulator forms of the shifts. -/
def writesA : Instr → Bool
  | .adc _ | .sbc _ | .and _ | .ora _ | .eor _ | .lda _ | .pla | .txa | .tya => true
  | .asl .acc | .lsr .acc | .rol .acc | .ror .acc => true
  | _ => false

/-- The writers of X (R23). -/
def writesX : Instr → Bool
  | .ldx _ | .tax | .tsx | .inx | .dex => true
  | _ => false

/-- The writers of Y (R24). -/
def writesY : Instr → Bool
  | .ldy _ | .tay | .iny | .dey => true
  | _ => false

/-- The writers of SP (R25). -/
def writesSp : Instr → Bool
  | .txs | .pha | .php | .pla | .plp | .jsr _ | .rts | .brk | .rti => true
  | _ => false

/-- The writers of N and of Z (R28). -/
def writesNZ : Instr → Bool
  | .adc _ | .sbc _ | .and _ | .ora _ | .eor _ | .lda _ | .ldx _ | .ldy _ | .inc _ | .dec _ => true
  | .inx | .iny | .dex | .dey | .asl _ | .lsr _ | .rol _ | .ror _ => true
  | .tax | .tay | .txa | .tya | .tsx | .pla | .cmp _ | .cpx _ | .cpy _ | .bit _ | .plp | .rti => true
  | _ => false

/-- The writers of V (R28). -/
def writesV : Instr → Bool
  | .adc _ | .sbc _ | .bit _ | .clv | .plp | .rti => true
  | _ => false

/-- The writers of C (R28). -/
def writesC : Instr → Bool
  | .adc _ | .sbc _ | .asl _ | .lsr _ | .rol _ | .ror _ | .cmp _ | .cpx _ | .cpy _ | .clc | .sec | .plp | .rti => true
  | _ => false

/-- The writers of D (R28). -/
def writesD : Instr → Bool
  | .cld | .sed | .plp | .rti => true
  | _ => false

/-- The writers of I (R28). -/
def writesI : Instr → Bool
  | .cli | .sei | .brk | .plp | .rti => true
  | _ => false

/-- The condition of a branch (R174 to R182) with its offset byte; none for any other instruction. -/
def branchCondition (s : State) : Instr → Option (Bool × Byte)
  | .bpl b1 => some (!s.flags.n, b1)
  | .bmi b1 => some (s.flags.n, b1)
  | .bvc b1 => some (!s.flags.v, b1)
  | .bvs b1 => some (s.flags.v, b1)
  | .bcc b1 => some (!s.flags.c, b1)
  | .bcs b1 => some (s.flags.c, b1)
  | .bne b1 => some (!s.flags.z, b1)
  | .beq b1 => some (s.flags.z, b1)
  | _ => none

/-- The control transfers (R100): each of their rules writes PC itself. -/
def controlTransfer : Instr → Bool
  | .jmp _ | .jmpInd _ | .jsr _ | .rts | .rti | .brk => true
  | .bpl _ | .bmi _ | .bvc _ | .bvs _ | .bcc _ | .bcs _ | .bne _ | .beq _ => true
  | _ => false

/-- The page-cross signal of an instruction (R101). -/
def crossed (s : State) : Instr → Bool
  | .adc r | .sbc r | .and r | .ora r | .eor r | .bit r | .lda r | .ldx r | .ldy r | .cmp r | .cpx r | .cpy r =>
    readCrossed s r
  | .sta m | .stx m | .sty m => (MemMode.resolve s m).crossed
  | .asl (.mem m) | .lsr (.mem m) | .rol (.mem m) | .ror (.mem m) | .inc m | .dec m => (MemMode.resolve s m.toMem).crossed
  | _ => false

/-! ## Encodings, as the rules' Encoding lines give them -/

/-- `bytes` are the encoding of `i`, for the encoder and, whatever follows them, for the decoder. -/
def Encodes (i : Instr) (bytes : List Byte) : Prop := encode i = bytes ∧ ∀ rest, decode (bytes ++ rest) = .ok (i, rest)

/-- The eight forms of ADC, SBC, AND, ORA, EOR, CMP and LDA, in the order of their Encoding lines. -/
def AluEncoding (mk : ReadOp → Instr) (imm zp zpX abs absX absY indX indY : Byte) : Prop :=
  ∀ b lo hi : Byte,
    Encodes (mk (.imm b)) [imm, b] ∧ Encodes (mk (.mem (.zp b))) [zp, b] ∧ Encodes (mk (.mem (.zpX b))) [zpX, b] ∧
    Encodes (mk (.mem (.abs (wordOf hi lo)))) [abs, lo, hi] ∧ Encodes (mk (.mem (.absX (wordOf hi lo)))) [absX, lo, hi] ∧
    Encodes (mk (.mem (.absY (wordOf hi lo)))) [absY, lo, hi] ∧ Encodes (mk (.mem (.indX b))) [indX, b] ∧
    Encodes (mk (.mem (.indY b))) [indY, b]

/-- The three forms of CPX and CPY (R171, R172). -/
def IndexCompareEncoding (mk : ReadOp → Instr) (imm zp abs : Byte) : Prop :=
  ∀ b lo hi : Byte, Encodes (mk (.imm b)) [imm, b] ∧ Encodes (mk (.mem (.zp b))) [zp, b] ∧
    Encodes (mk (.mem (.abs (wordOf hi lo)))) [abs, lo, hi]

/-- The five forms of a shift or rotate (R150 to R153). -/
def ShiftEncoding (mk : ShiftOp → Instr) (acc zp zpX abs absX : Byte) : Prop :=
  ∀ b lo hi : Byte, Encodes (mk .acc) [acc] ∧ Encodes (mk (.mem (.zp b))) [zp, b] ∧
    Encodes (mk (.mem (.zpX b))) [zpX, b] ∧ Encodes (mk (.mem (.abs (wordOf hi lo)))) [abs, lo, hi] ∧
    Encodes (mk (.mem (.absX (wordOf hi lo)))) [absX, lo, hi]

/-- The four forms of INC and DEC (R154, R155). -/
def RmwEncoding (mk : RmwMode → Instr) (zp zpX abs absX : Byte) : Prop :=
  ∀ b lo hi : Byte, Encodes (mk (.zp b)) [zp, b] ∧ Encodes (mk (.zpX b)) [zpX, b] ∧
    Encodes (mk (.abs (wordOf hi lo))) [abs, lo, hi] ∧ Encodes (mk (.absX (wordOf hi lo))) [absX, lo, hi]

/-! ## Cycle counts -/

/-- The default base costs by class and mode, as R118's table gives them. -/
def DefaultCycles : Prop :=
  ∀ (b : Byte) (w : Addr),
    (∀ mk ∈ [Instr.adc, .sbc, .and, .ora, .eor, .cmp, .lda],
      defaultCycles (mk (.imm b)) = 2 ∧ defaultCycles (mk (.mem (.zp b))) = 3 ∧ defaultCycles (mk (.mem (.zpX b))) = 4 ∧
      defaultCycles (mk (.mem (.abs w))) = 4 ∧ defaultCycles (mk (.mem (.absX w))) = 4 ∧
      defaultCycles (mk (.mem (.absY w))) = 4 ∧ defaultCycles (mk (.mem (.indX b))) = 6 ∧
      defaultCycles (mk (.mem (.indY b))) = 5) ∧
    (∀ mk ∈ [Instr.ldx, .ldy, .cpx, .cpy],
      defaultCycles (mk (.imm b)) = 2 ∧ defaultCycles (mk (.mem (.zp b))) = 3 ∧ defaultCycles (mk (.mem (.abs w))) = 4) ∧
    defaultCycles (.ldx (.mem (.zpY b))) = 4 ∧ defaultCycles (.ldx (.mem (.absY w))) = 4 ∧
    defaultCycles (.ldy (.mem (.zpX b))) = 4 ∧ defaultCycles (.ldy (.mem (.absX w))) = 4 ∧
    defaultCycles (.bit (.mem (.zp b))) = 3 ∧ defaultCycles (.bit (.mem (.abs w))) = 4 ∧
    (∀ mk ∈ [Instr.sta, .stx, .sty], defaultCycles (mk (.zp b)) = 3 ∧ defaultCycles (mk (.abs w)) = 4) ∧
    defaultCycles (.sta (.zpX b)) = 4 ∧ defaultCycles (.sta (.absX w)) = 5 ∧ defaultCycles (.sta (.absY w)) = 5 ∧
    defaultCycles (.sta (.indX b)) = 6 ∧ defaultCycles (.sta (.indY b)) = 6 ∧
    defaultCycles (.stx (.zpY b)) = 4 ∧ defaultCycles (.sty (.zpX b)) = 4 ∧
    (∀ mk ∈ [Instr.asl, .lsr, .rol, .ror],
      defaultCycles (mk .acc) = 2 ∧ defaultCycles (mk (.mem (.zp b))) = 5 ∧ defaultCycles (mk (.mem (.zpX b))) = 6 ∧
      defaultCycles (mk (.mem (.abs w))) = 6 ∧ defaultCycles (mk (.mem (.absX w))) = 7) ∧
    (∀ mk ∈ [Instr.inc, .dec],
      defaultCycles (mk (.zp b)) = 5 ∧ defaultCycles (mk (.zpX b)) = 6 ∧ defaultCycles (mk (.abs w)) = 6 ∧
      defaultCycles (mk (.absX w)) = 7) ∧
    (∀ i ∈ [Instr.inx, .iny, .dex, .dey, .tax, .tay, .txa, .tya, .tsx, .txs] ++
        [.clc, .cld, .cli, .clv, .sec, .sed, .sei, .nop],
      defaultCycles i = 2) ∧
    defaultCycles .pha = 3 ∧ defaultCycles .php = 3 ∧ defaultCycles .pla = 4 ∧ defaultCycles .plp = 4 ∧
    defaultCycles (.jmp w) = 3 ∧ defaultCycles (.jmpInd w) = 5 ∧ defaultCycles (.jsr w) = 6 ∧
    defaultCycles .rts = 6 ∧ defaultCycles .rti = 6 ∧ defaultCycles .brk = 7 ∧
    ∀ i ∈ [Instr.bpl b, .bmi b, .bvc b, .bvs b, .bcc b, .bcs b, .bne b, .beq b], defaultCycles i = 2

/-- The base cost of an instruction is the count of its opcode's row in the `CYCLE_TABLE` in force (R117): the first one
listed for that byte, and else the default's (log entry 6). An unrecognized opcode costs 2 whatever the table holds. -/
def CycleTableInForce : Prop :=
  (∀ (p : Params) (i : Instr) (op : Byte), i.opcode = some op → isUnrecognized op = false →
    baseCycles p i = tableCycles p op (defaultCycles i)) ∧
  (∀ (p : Params) (op : Byte), baseCycles p (.unrecognized op) = 2) ∧
  (∀ (p : Params) (op : Byte) (n : Nat), p.cycleTable = [] → tableCycles p op n = n) ∧
  ∀ (p : Params) (op row : Byte) (n count : Nat) (rest : CycleTable), p.cycleTable = (row, count) :: rest →
    tableCycles p op n = if row = op then count else tableCycles { p with cycleTable := rest } op n

/-! ## What an instruction leaves in memory -/

/-- Memory holds `v` at `a` and is otherwise as before. -/
def StoresByte (s t : State) (a : Addr) (v : Byte) : Prop :=
  t.memRead a = v ∧ ∀ b, b ≠ a → t.memRead b = s.memRead b

/-- What a shift's operand is before it (R150): A, or the byte at the address of the memory form. -/
def ShiftOperand : Prop :=
  ∀ (s : State) (b : Byte) (w : Addr),
    shiftValue s .acc = s.a ∧ shiftValue s (.mem (.zp b)) = s.memRead (effAddr s (.zp b)) ∧
    shiftValue s (.mem (.zpX b)) = s.memRead (effAddr s (.zpX b)) ∧
    shiftValue s (.mem (.abs w)) = s.memRead (effAddr s (.abs w)) ∧
    shiftValue s (.mem (.absX w)) = s.memRead (effAddr s (.absX w))

/-- A shift's operand holds the result: A with memory as before, or the byte at `ea` with A as before. -/
def WritesOperand (s t : State) (v : Byte) : ShiftOp → Prop
  | .acc => t.a = v ∧ t.mem = s.mem
  | .mem m => t.a = s.a ∧ StoresByte s t (effAddr s m.toMem) v

/-- The address of the stack byte `n` above (or, for a negative `n`, below) SP, in page 1, mod 256 (R25). -/
def stackCell (s : State) (n : Int) : Addr := BitVec.ofNat 16 (256 + ((s.sp.toNat + n) % 256).toNat)

/-- The byte at an address given as a number, as a number. -/
def byteAt (s : State) (a : Nat) : Nat := (s.memRead (BitVec.ofNat 16 a)).toNat

/-! ## The launch premise (R311) -/

/-- Every byte the next `k` steps read is in `known` or was stored by an earlier step of them (R311(a)). -/
def readsKnown : Nat → List Addr → State → Bool
  | 0, _, _ => true
  | k + 1, known, s =>
    (stepReads s).all (fun a => known.contains a) &&
      match step s with
      | .next t => readsKnown k (stepWrites s ++ known) t
      | .fault _ => false
      | .refused _ => false

/-- `LaunchOK(INITIAL_MEMORY, run)` for a run of `k` steps (R311): the vector bytes that reset reads and every byte
the steps read are populated by the image or stored earlier. Parts (b) to (d) hold by construction: reset runs once
after loading, no host writes between steps, and no step writes the parameters. -/
def launchOK (p : Params) (image : List Host.Cell) (r : ResetInputs) (k : Nat) : Bool :=
  let known := image.map (fun c => BitVec.ofNat 16 c.1)
  (r.pcOverride.isSome || (known.contains resetVector && known.contains (resetVector + 1))) &&
    readsKnown k known (boot p image r)

/-! ## The end of a run (R312) -/

/-- The halt idiom (R312 (2)): PC points at `4C lo hi` with `hi:lo = PC`. -/
def haltIdiom (s : State) : Bool := s.memRead s.pc == 0x4C && s.memRead16 (s.pc + 1) == s.pc

/-- A run from `s` to its end (R312): the cycle sum and the state there. It ends before a halt idiom, or after the
first step that brings the sum to `budget` (RUN_CYCLES) or beyond; `fuel` bounds the number of steps
(log entry 15). -/
def runToEnd (budget : Nat) : Nat → Nat → State → Option (Nat × State)
  | 0, _, _ => none
  | fuel + 1, sum, s =>
    if haltIdiom s then some (sum, s)
    else
      match step s with
      | .next t => if budget ≤ sum + t.cycles then some (sum + t.cycles, t) else runToEnd budget fuel (sum + t.cycles) t
      | .fault _ => none
      | .refused _ => none

end Sys2Proof.Safety
end

