-- ==== Sys2Proof/Certificates/Slice0/Obligations.lean ====
section
/-! DEFINITION. The statements for the provers. Each docstring names the rule of spec/ it formalises.

`tableCycles s.params op n` is the count of row `op` in the `CYCLE_TABLE` in force, `n` being the default table's
(R117, R118); CycleCount says what it and `baseCycles` are. A statement about every operand term holds of the terms no
byte decodes to as well (log entry 14). -/

open Sys2Proof Sys2Proof.Machine Sys2Proof.Safety

/-! ## Encoding (spec/30_encoding.md) -/

/-- R80 to R85: the decoder gives back every well-formed instruction from its encoding, whatever follows it. -/
def Obligations.DecodeOfEncode : Prop :=
  ∀ (i : Instr) (rest : List Byte), WellFormed i = true → decode (encode i ++ rest) = .ok (i, rest)

/-- R80 to R85: what the decoder reads is a well-formed instruction, and the bytes it took are its encoding. -/
def Obligations.EncodeOfDecode : Prop :=
  ∀ (bytes : List Byte) (i : Instr) (rest : List Byte),
    decode bytes = .ok (i, rest) → WellFormed i = true ∧ bytes = encode i ++ rest

/-- R89: the opcode byte alone fixes the length. That the decoder refuses a list with too few bytes after the opcode,
under the name `truncated`, is the model's choice (log entry 16): R89 says nothing of it. -/
def Obligations.LengthFromOpcodeAlone : Prop :=
  ∀ op : Byte, ∃ n : Nat, n ≤ 2 ∧ (isUnrecognized op = true → n = 0) ∧
    ∀ rest : List Byte,
      (n ≤ rest.length → ∃ i, decode (op :: rest) = .ok (i, rest.drop n) ∧ i.mode.length = 1 + n) ∧
      (rest.length < n → decode (op :: rest) = .error (.truncated op))

/-- R87, R225: the 105 unrecognized bytes are exactly those listed; at PC each is a one-byte, two-cycle no-operation
that logs one event, whatever bytes follow it; no other byte decodes to an unrecognized opcode. The last clause is
the instruction's own effect. -/
def Obligations.UnrecognizedOpcodes : Prop :=
  let listed : List Byte :=
    [0x02, 0x03, 0x04, 0x07, 0x0B, 0x0C, 0x0F, 0x12, 0x13, 0x14, 0x17, 0x1A, 0x1B, 0x1C, 0x1F] ++
    [0x22, 0x23, 0x27, 0x2B, 0x2F, 0x32, 0x33, 0x34, 0x37, 0x3A, 0x3B, 0x3C, 0x3F, 0x42, 0x43] ++
    [0x44, 0x47, 0x4B, 0x4F, 0x52, 0x53, 0x54, 0x57, 0x5A, 0x5B, 0x5C, 0x5F, 0x62, 0x63, 0x64] ++
    [0x67, 0x6B, 0x6F, 0x72, 0x73, 0x74, 0x77, 0x7A, 0x7B, 0x7C, 0x7F, 0x80, 0x82, 0x83, 0x87] ++
    [0x89, 0x8B, 0x8F, 0x92, 0x93, 0x97, 0x9B, 0x9C, 0x9E, 0x9F, 0xA3, 0xA7, 0xAB, 0xAF, 0xB2] ++
    [0xB3, 0xB7, 0xBB, 0xBF, 0xC2, 0xC3, 0xC7, 0xCB, 0xCF, 0xD2, 0xD3, 0xD4, 0xD7, 0xDA, 0xDB] ++
    [0xDC, 0xDF, 0xE2, 0xE3, 0xE7, 0xEB, 0xEF, 0xF2, 0xF3, 0xF4, 0xF7, 0xFA, 0xFB, 0xFC, 0xFF]
  (∀ op ∈ listed, Encodes (.unrecognized op) [op]) ∧
  (∀ s : State, s.memRead s.pc ∈ listed →
    step s = .next { s with pc := s.pc + 1, cycles := 2, log := s.log ++ [⟨s.pc, s.memRead s.pc⟩] }) ∧
  (∀ op ∉ listed, ∀ b1 b2 x : Byte, instrOf op b1 b2 ≠ .unrecognized x) ∧
  (∀ (op : Byte) (s : State),
    exec (.unrecognized op) s = .next { s with pc := s.pc + 1, cycles := 2, log := s.log ++ [⟨s.pc, op⟩] })

/-- R82, R83, R90: a few words of the spec's own examples decode to what they stand for. -/
def Obligations.SampleWords : Prop :=
  Encodes (.adc (.imm 0x50)) [0x69, 0x50] ∧ Encodes (.lda (.mem (.absX 0x0200))) [0xBD, 0x00, 0x02] ∧
  Encodes (.jmpInd 0x02FF) [0x6C, 0xFF, 0x02] ∧ Encodes (.bne 0xF8) [0xD0, 0xF8] ∧
  Encodes (.sta (.absY 0x0400)) [0x99, 0x00, 0x04] ∧ Encodes (.asl .acc) [0x0A] ∧ Encodes .brk [0x00]

/-! ## The step (spec/40_step_and_addressing.md) -/

/-- R100: when the bytes at PC decode to an instruction, it is well formed and the step is its execution. The model
decodes three bytes from PC and uses as many as the instruction has (log entry 11). -/
def Obligations.StepRunsDecodedInstruction : Prop :=
  ∀ (s : State) (i : Instr) (rest : List Byte),
    decode (fetchBytes s) = .ok (i, rest) → WellFormed i = true ∧ step s = exec i s

/-- R100, R82: when the bytes from PC on are the encoding of a well-formed instruction, each address mod 65536, the
step is its execution, whatever stands after them. -/
def Obligations.StepRunsEncodedInstruction : Prop :=
  ∀ (s : State) (i : Instr), WellFormed i = true →
    (bytesFrom s.pc i.length).map s.memRead = encode i → step s = exec i s

/-- R82, R104, R108: the fetched instruction's bytes are the ones from PC on; so an immediate is the byte at
`pc0 + 1`, and a word operand has its low byte there and its high byte at `pc0 + 2`. -/
def Obligations.FetchedBytesAreEncoding : Prop :=
  ∀ s : State, (bytesFrom s.pc (fetchInstr s).length).map s.memRead = encode (fetchInstr s)

/-- R5, R270: every step and every instruction of every state completes with a next state; the terms no byte decodes to
complete too, which is the model's choice (log entry 14). -/
def Obligations.EveryStepCompletes : Prop :=
  (∀ s : State, ∃ t, step s = .next t) ∧ ∀ (i : Instr) (s : State), ∃ t, exec i s = .next t

/-- R120: PC advances by the length unless the instruction is a control transfer; a branch leaves `pc0 + 2` or its target. -/
def Obligations.PcAdvance : Prop :=
  ∀ (i : Instr) (s : State), ∃ t, exec i s = .next t ∧
    (controlTransfer i = false → t.pc = s.pc + BitVec.ofNat 16 i.length) ∧
    (∀ cond b1, branchCondition s i = some (cond, b1) →
      t.pc = if cond then s.pc + 2 + b1.signExtend 16 else s.pc + 2)

/-- R117, R118, R173: the count is the base cost, plus 1 for an eligible access that crosses a page, plus the branch
extra. Then what those are: which instructions are eligible (R117), the base costs of the default table (R118), and the
`CYCLE_TABLE` in force (R10; given by its departures from the default, log entry 6). Under the default table a count
lies between 2 and 7 (95 L7). -/
def Obligations.CycleCount : Prop :=
  (∀ (i : Instr) (s : State), ∃ t, exec i s = .next t ∧
    t.cycles = baseCycles s.params i + (if pagePenalty i && crossed s i then 1 else 0) +
      (match branchCondition s i with
      | some (true, b1) => 1 + if (s.pc + 2 + b1.signExtend 16) &&& 0xFF00 ≠ (s.pc + 2) &&& 0xFF00 then 1 else 0
      | _ => 0) ∧
    (s.params.cycleTable = [] → 2 ≤ t.cycles ∧ t.cycles ≤ 7)) ∧
  (∀ i : Instr, pagePenalty i = true ↔ i.mode ∈ [Mode.absoluteX, .absoluteY, .indirectIndexedY] ∧ ∃ r : ReadOp,
    i ∈ [Instr.adc r, .sbc r, .and r, .ora r, .eor r, .cmp r, .lda r, .ldx r, .ldy r, .cpx r, .cpy r, .bit r]) ∧
  DefaultCycles ∧ CycleTableInForce

/-- R8, R119: no instruction reads the cycle count or the log, and each only appends to the log. That the two outputs
are fields of State is the model's choice (log entries 7, 8). -/
def Obligations.OutputsAreNeverRead : Prop :=
  ∀ (i : Instr) (s : State), ∃ t new, exec i s = .next t ∧ t.log = s.log ++ new ∧
    ∀ (n : Nat) (l : List LogEvent), exec i { s with cycles := n, log := l } = .next { t with log := l ++ new }

/-! ## Addressing modes (R105 to R115) -/

/-- R105, R106, R107: the zero-page modes take one operand byte, wrap mod 256 and never cross; only LDX and STX use
`zeropage_y`. -/
def Obligations.ZeroPageModes : Prop :=
  (∀ (s : State) (b1 : Byte),
    (MemMode.zp b1).bytes = [b1] ∧ (MemMode.zpX b1).bytes = [b1] ∧ (MemMode.zpY b1).bytes = [b1] ∧
    (MemMode.resolve s (.zp b1)).ea.toNat = b1.toNat ∧
    (MemMode.resolve s (.zpX b1)).ea.toNat = (b1.toNat + s.x.toNat) % 256 ∧
    (MemMode.resolve s (.zpY b1)).ea.toNat = (b1.toNat + s.y.toNat) % 256 ∧
    (MemMode.resolve s (.zp b1)).crossed = false ∧ (MemMode.resolve s (.zpX b1)).crossed = false ∧
    (MemMode.resolve s (.zpY b1)).crossed = false) ∧
  ∀ i : Instr, WellFormed i = true → i.mode = .zeropageY → (∃ r, i = .ldx r) ∨ ∃ m, i = .stx m

/-- R109, R110: the absolute indexed modes take the base low byte first, add mod 65536 and cross when the low byte's
sum passes 0xFF. Beside them the absolute mode: its address is the operand itself and never crosses. -/
def Obligations.AbsoluteIndexedModes : Prop :=
  ∀ (s : State) (b1 b2 : Byte),
    let base := wordOf b2 b1
    base.toNat = b1.toNat + 256 * b2.toNat ∧
    (MemMode.abs base).bytes = [b1, b2] ∧ (MemMode.absX base).bytes = [b1, b2] ∧ (MemMode.absY base).bytes = [b1, b2] ∧
    (MemMode.resolve s (.abs base)).ea = base ∧ (MemMode.resolve s (.abs base)).crossed = false ∧
    (MemMode.resolve s (.absX base)).ea.toNat = (base.toNat + s.x.toNat) % 65536 ∧
    ((MemMode.resolve s (.absX base)).crossed = true ↔ base.toNat % 256 + s.x.toNat > 0xFF) ∧
    (MemMode.resolve s (.absY base)).ea.toNat = (base.toNat + s.y.toNat) % 65536 ∧
    ((MemMode.resolve s (.absY base)).crossed = true ↔ base.toNat % 256 + s.y.toNat > 0xFF)

/-- R111, R112, R56: the indirect modes read their pointer inside page 0, and `($zz),Y` adds Y to the pointer. -/
def Obligations.IndirectModes : Prop :=
  ∀ (s : State) (b1 : Byte),
    let p := b1.toNat + s.x.toNat
    let base := byteAt s b1.toNat + 256 * byteAt s ((b1.toNat + 1) % 256)
    (MemMode.indX b1).bytes = [b1] ∧ (MemMode.indY b1).bytes = [b1] ∧
    (MemMode.resolve s (.indX b1)).ea.toNat = byteAt s (p % 256) + 256 * byteAt s ((p + 1) % 256) ∧
    (MemMode.resolve s (.indX b1)).crossed = false ∧
    (MemMode.resolve s (.indY b1)).ea.toNat = (base + s.y.toNat) % 65536 ∧
    ((MemMode.resolve s (.indY b1)).crossed = true ↔ base % 256 + s.y.toNat > 0xFF)

/-- R115, with the equivalence that the spec marks as derived from R109 and R112: the page-cross formula says that the
index changes the high byte, the wrap at 0xFFFF included. -/
def Obligations.PageCrossIsHighByteChange : Prop :=
  ∀ (base : Addr) (index : Byte),
    (pageCrossed base index = true ↔ base.toNat % 256 + index.toNat > 0xFF) ∧
    (pageCrossed base index = true ↔ (base &&& 0xFF00) ≠ ((indexed base index).ea &&& 0xFF00))

/-- 95 L8, L9: pointer reads and zero-page operands stay in page 0, and the stack instructions in page 1. -/
def Obligations.PageConfinement : Prop :=
  (∀ (s : State) (m : MemMode), ∀ a ∈ pointerReads s m, a.toNat < 0x0100) ∧
  (∀ (s : State) (b1 : Byte), (effAddr s (.zpX b1)).toNat < 0x0100 ∧ (effAddr s (.zpY b1)).toNat < 0x0100) ∧
  (∀ (s : State) (target : Addr), ∀ i ∈ [Instr.pha, .php, .brk, .jsr target],
    ∀ a ∈ storedAddrs s i, 0x0100 ≤ a.toNat ∧ a.toNat < 0x0200) ∧
  (∀ s : State, ∀ i ∈ [Instr.pla, .plp, .rts, .rti], ∀ a ∈ dataReads s i, 0x0100 ≤ a.toNat ∧ a.toNat < 0x0200)

/-! ## Memory and the stack (spec/20_memory.md) -/

/-- R50, R63: on a canonical memory a write is seen at its address and nowhere else, the last of two writes to one
address stands, and writes to two addresses can be exchanged; each as equality of states. And the canonical form is
one (the model's form, log entry 1): two such memories with the same byte at every address are the same data. -/
def Obligations.MemoryLaws : Prop :=
  (∀ (s : State) (a b : Addr) (v w : Byte), Memory.wf s.mem = true →
    (s.memWrite a v).memRead a = v ∧ (s.memWrite a v).memWrite a w = s.memWrite a w ∧
    (a ≠ b → (s.memWrite a v).memRead b = s.memRead b ∧
      (s.memWrite a v).memWrite b w = (s.memWrite b w).memWrite a v) ∧
    (s.memRead a = v → s.memWrite a v = s)) ∧
  ∀ m m' : Memory, Memory.wf m = true → Memory.wf m' = true →
    (∀ a : Addr, Memory.read m a.toNat = Memory.read m' a.toNat) → m = m'

/-- R55, R56, R57: the three word reads, with the address each takes its high byte from. -/
def Obligations.WordReads : Prop :=
  ∀ (s : State) (a : Addr) (z : Byte),
    (s.memRead16 a).toNat = byteAt s a.toNat + 256 * byteAt s ((a.toNat + 1) % 65536) ∧
    (s.memRead16ZP z).toNat = byteAt s z.toNat + 256 * byteAt s ((z.toNat + 1) % 256) ∧
    (s.memRead16PageWrap a).toNat =
      byteAt s a.toNat + 256 * byteAt s (a.toNat / 256 * 256 + (a.toNat + 1) % 256)

/-- R60, R61: a push writes at `0x0100 + SP` and then decrements SP mod 256; a pull increments and then reads;
a pull after a push returns the byte and restores SP. -/
def Obligations.PushAndPull : Prop :=
  ∀ (s : State) (v : Byte),
    StoresByte s (s.push v) (stackCell s 0) v ∧
    s.push v = { s with sp := (s.push v).sp, mem := (s.push v).mem } ∧
    (s.push v).sp.toNat = (s.sp.toNat + 255) % 256 ∧
    s.pulled = s.memRead (stackCell s 1) ∧ s.pull = { s with sp := s.pull.sp } ∧
    s.pull.sp.toNat = (s.sp.toNat + 1) % 256 ∧
    (s.push v).pulled = v ∧ (s.push v).pull.sp = s.sp

/-! ## Frames and whole-machine rules (spec/10_state.md) -/

/-- R22 to R25, R311(d), R225: an instruction changes A, X, Y and SP only if it is listed as a writer of that
register, never a parameter (held in State by log entry 5), and the log only if it is an unrecognized opcode. -/
def Obligations.RegisterFrame : Prop :=
  ∀ (i : Instr) (s : State), ∃ t, exec i s = .next t ∧
    (writesA i = false → t.a = s.a) ∧ (writesX i = false → t.x = s.x) ∧ (writesY i = false → t.y = s.y) ∧
    (writesSp i = false → t.sp = s.sp) ∧ t.params = s.params ∧
    ((∀ op, i ≠ .unrecognized op) → t.log = s.log)

/-- R28: an instruction changes a flag only if it is listed as a writer of that flag. -/
def Obligations.FlagFrame : Prop :=
  ∀ (i : Instr) (s : State), ∃ t, exec i s = .next t ∧
    (writesNZ i = false → t.flags.n = s.flags.n ∧ t.flags.z = s.flags.z) ∧
    (writesV i = false → t.flags.v = s.flags.v) ∧ (writesC i = false → t.flags.c = s.flags.c) ∧
    (writesD i = false → t.flags.d = s.flags.d) ∧ (writesI i = false → t.flags.i = s.flags.i)

/-- R59: an instruction changes no byte of memory but those it stores to, at the addresses its meaning computes; an
instruction that stores nothing leaves the whole memory. -/
def Obligations.MemoryFrame : Prop :=
  ∀ (i : Instr) (s : State), ∃ t, exec i s = .next t ∧
    (∀ a, a ∉ storedAddrs s i → t.memRead a = s.memRead a) ∧ (storedAddrs s i = [] → t.mem = s.mem)

/-- R29, R130, R273: but for PHP and BRK, which push them, no instruction reads D or I: with both changed before, the
result is the same, with each so changed after it unless the instruction writes that flag. -/
def Obligations.DecimalAndInterruptFlagsUnread : Prop :=
  ∀ (i : Instr) (s : State) (d b : Bool), i ≠ .php → i ≠ .brk → ∃ t, exec i s = .next t ∧
    exec i { s with flags := { s.flags with d := d, i := b } } =
      .next { t with flags :=
        { t.flags with d := if writesD i then t.flags.d else d, i := if writesI i then t.flags.i else b } }

/-- R59, R66, R89: a step depends on memory only through the bytes it reads (its own bytes, its pointers, its
operand, the stack and vector bytes): with those the same, the registers, flags, outputs and stored bytes are the same. -/
def Obligations.StepDependsOnItsReads : Prop :=
  ∀ s s' : State, SameButMemory s s' → SameAt (stepReads s) s s' →
    ∃ t t', step s = .next t ∧ step s' = .next t' ∧ SameButMemory t t' ∧ SameAt (stepWrites s) t t' ∧
      ∀ a, a ∉ stepWrites s → t.memRead a = s.memRead a ∧ t'.memRead a = s'.memRead a

/-- R71, R311(a): under the launch premise a run of any length does not depend on a byte the loader did not populate. -/
def Obligations.LaunchPremiseSuffices : Prop :=
  ∀ (k : Nat) (known : List Addr) (s s' : State),
    readsKnown k known s = true → SameButMemory s s' → SameAt known s s' →
      ∃ t t' : State, Host.Core.run Sys2Proof.core k s = .next t ∧ Host.Core.run Sys2Proof.core k s' = .next t' ∧
        SameButMemory t t' ∧ SameAt known t t'

/-- Every step keeps the invariant: memory in the canonical form, which is the model's own (log entry 1: R50 gives a
total memory and no form), and the log a log of unrecognized opcodes (R8). -/
def Obligations.StepKeepsInvariant : Prop :=
  ∀ s t : State, Inv s → step s = .next t → Inv t

/-- The invariant holds at State.reset, and `reset` keeps it: R300 writes no memory and R301 leaves the log. The
canonical form of memory, and that State.reset lists nothing, are the model's choices (log entry 1). -/
def Obligations.ResetMeetsInvariant : Prop :=
  Inv State.reset ∧ ∀ (r : ResetInputs) (s : State), Inv s → Inv (resetWith r s)

/-! ## Reset (spec/70_reset_and_hazards.md) -/

/-- R300: what reset does, for all its inputs. -/
def Obligations.ResetProcedure : Prop :=
  ∀ (r : ResetInputs) (s : State),
    (resetWith r s).a = r.a ∧ (resetWith r s).x = r.x ∧ (resetWith r s).y = r.y ∧ (resetWith r s).sp = r.sp ∧
    (resetWith r s).flags = { n := r.n, v := r.v, d := r.d, i := true, z := r.z, c := r.c } ∧
    (∀ p, r.pcOverride = some p → (resetWith r s).pc = p) ∧
    (r.pcOverride = none → (resetWith r s).pc.toNat = byteAt s 0xFFFC + 256 * byteAt s 0xFFFD) ∧
    (resetWith r s).mem = s.mem ∧ (resetWith r s).log = s.log ∧ (resetWith r s).params = s.params

/-- State.reset is the machine after reset with the harness inputs (the model's choice, log entries 1 to 3, 5, 7):
the spec's own value among them is I = 1. -/
def Obligations.ResetState : Prop :=
  State.reset = resetWith defaultResetInputs State.powerOn ∧ State.reset.flags.i = true ∧ State.reset.log = [] ∧
    ∀ a : Addr, State.reset.memRead a = unlistedByte

/-! ## Arithmetic and logic (spec/41_alu.md) -/

/-- R131: ADC, its encodings, the exact sum with its carry out, V when the operands have one sign and the result the
other, N and Z; nothing else changes. -/
def Obligations.AddWithCarry : Prop :=
  AluEncoding .adc 0x69 0x65 0x75 0x6D 0x7D 0x79 0x61 0x71 ∧
  ∀ (r : ReadOp) (s : State), ∃ (res : Byte) (v c : Bool),
    exec (.adc r) s = .next { s with
      a := res, flags := { s.flags with n := res[7], v := v, z := res == 0, c := c },
      pc := s.pc + BitVec.ofNat 16 r.mode.length, cycles := readCost s (.adc r) r } ∧
    res.toNat + 256 * c.toNat = s.a.toNat + (readValue s r).toNat + s.flags.c.toNat ∧
    (v = true ↔ s.a[7] = (readValue s r)[7] ∧ res[7] ≠ s.a[7])

/-- R132: SBC, its encodings, and R131's sum with the complement `0xFF ^ M` in place of `M`. -/
def Obligations.SubtractWithCarry : Prop :=
  AluEncoding .sbc 0xE9 0xE5 0xF5 0xED 0xFD 0xF9 0xE1 0xF1 ∧
  ∀ (r : ReadOp) (s : State), ∃ (res : Byte) (v c : Bool),
    exec (.sbc r) s = .next { s with
      a := res, flags := { s.flags with n := res[7], v := v, z := res == 0, c := c },
      pc := s.pc + BitVec.ofNat 16 r.mode.length, cycles := readCost s (.sbc r) r } ∧
    res.toNat + 256 * c.toNat = s.a.toNat + (255 - (readValue s r).toNat) + s.flags.c.toNat ∧
    (v = true ↔ s.a[7] ≠ (readValue s r)[7] ∧ res[7] ≠ s.a[7])

/-- R131 and R132, with what the spec marks as derived from their pseudocode: V is signed overflow; SBC leaves the
difference with borrow `1 - C`, and C set exactly when there is no borrow. -/
def Obligations.BorrowAndOverflow : Prop :=
  ∀ (r : ReadOp) (s : State), ∃ t u, exec (.adc r) s = .next t ∧ exec (.sbc r) s = .next u ∧
    (t.flags.v = true ↔ s.a.toInt + (readValue s r).toInt + s.flags.c.toNat < -128 ∨
      127 < s.a.toInt + (readValue s r).toInt + s.flags.c.toNat) ∧
    (u.a.toNat : Int) = ((s.a.toNat : Int) - (readValue s r).toNat - (1 - s.flags.c.toNat)) % 256 ∧
    (u.flags.c = true ↔ (s.a.toNat : Int) ≥ (readValue s r).toNat + (1 - s.flags.c.toNat)) ∧
    (u.flags.v = true ↔ s.a.toInt - (readValue s r).toInt - (1 - s.flags.c.toNat) < -128 ∨
      127 < s.a.toInt - (readValue s r).toInt - (1 - s.flags.c.toNat))

/-- R137, 95 L1: ADC then SBC of the same byte with carry-in `1 - c` restores A; with the carry ADC left, A comes
back only when that carry differs from `c`, and else is one too low (c = 0) or too high (c = 1). -/
def Obligations.ComplementIdentity : Prop :=
  ∀ (b : Byte) (s : State), ∃ t u w,
    exec (.adc (.imm b)) s = .next t ∧
    exec (.sbc (.imm b)) { t with flags := { t.flags with c := !s.flags.c } } = .next u ∧ u.a = s.a ∧
    exec (.sbc (.imm b)) t = .next w ∧
    w.a = if t.flags.c ≠ s.flags.c then s.a else if s.flags.c then s.a + 1 else s.a - 1

/-- R133, R134, R135: AND, ORA, EOR bit by bit, with N and Z of the result and C and V unchanged. -/
def Obligations.LogicalOperations : Prop :=
  AluEncoding .and 0x29 0x25 0x35 0x2D 0x3D 0x39 0x21 0x31 ∧
  AluEncoding .ora 0x09 0x05 0x15 0x0D 0x1D 0x19 0x01 0x11 ∧
  AluEncoding .eor 0x49 0x45 0x55 0x4D 0x5D 0x59 0x41 0x51 ∧
  ∀ (r : ReadOp) (s : State),
    let after (i : Instr) (res : Byte) : State := { s with
      a := res, flags := { s.flags with n := res[7], z := res == 0 },
      pc := s.pc + BitVec.ofNat 16 r.mode.length, cycles := readCost s i r }
    ∃ res1 res2 res3 : Byte,
      exec (.and r) s = .next (after (.and r) res1) ∧ exec (.ora r) s = .next (after (.ora r) res2) ∧
      exec (.eor r) s = .next (after (.eor r) res3) ∧
      ∀ k : Nat, res1.getLsbD k = (s.a.getLsbD k && (readValue s r).getLsbD k) ∧
        res2.getLsbD k = (s.a.getLsbD k || (readValue s r).getLsbD k) ∧
        res3.getLsbD k = (s.a.getLsbD k != (readValue s r).getLsbD k)

/-- R136: BIT takes N and V from memory and Z from `A & M`; A and C are not written. -/
def Obligations.BitTest : Prop :=
  (∀ b lo hi : Byte, Encodes (.bit (.mem (.zp b))) [0x24, b] ∧
    Encodes (.bit (.mem (.abs (wordOf hi lo)))) [0x2C, lo, hi]) ∧
  ∀ (r : ReadOp) (s : State), ∃ z : Bool,
    exec (.bit r) s = .next { s with
      flags := { s.flags with n := (readValue s r)[7], v := (readValue s r)[6], z := z },
      pc := s.pc + BitVec.ofNat 16 r.mode.length, cycles := readCost s (.bit r) r } ∧
    (z = true ↔ s.a &&& readValue s r = 0)

/-! ## Shifts, rotates, increments, decrements (spec/42_shift_incdec.md) -/

/-- R150, R152: ASL and ROL double the operand, the bit shifted out going to C and 0 or the old C coming in. -/
def Obligations.ShiftsLeft : Prop :=
  ShiftEncoding .asl 0x0A 0x06 0x16 0x0E 0x1E ∧ ShiftEncoding .rol 0x2A 0x26 0x36 0x2E 0x3E ∧
  ShiftOperand ∧ ∀ (o : ShiftOp) (s : State), ∃ (t u : State) (res res' : Byte) (c c' : Bool),
    exec (.asl o) s = .next t ∧
    t = { s with
      a := t.a, mem := t.mem, flags := { s.flags with n := res[7], z := res == 0, c := c },
      pc := s.pc + BitVec.ofNat 16 o.mode.length, cycles := baseCycles s.params (.asl o) } ∧
    WritesOperand s t res o ∧ res.toNat + 256 * c.toNat = 2 * (shiftValue s o).toNat ∧
    exec (.rol o) s = .next u ∧
    u = { s with
      a := u.a, mem := u.mem, flags := { s.flags with n := res'[7], z := res' == 0, c := c' },
      pc := s.pc + BitVec.ofNat 16 o.mode.length, cycles := baseCycles s.params (.rol o) } ∧
    WritesOperand s u res' o ∧ res'.toNat + 256 * c'.toNat = 2 * (shiftValue s o).toNat + s.flags.c.toNat

/-- R151, R153: LSR and ROR halve the operand, the bit shifted out going to C and 0 or the old C coming in at bit 7. -/
def Obligations.ShiftsRight : Prop :=
  ShiftEncoding .lsr 0x4A 0x46 0x56 0x4E 0x5E ∧ ShiftEncoding .ror 0x6A 0x66 0x76 0x6E 0x7E ∧
  ShiftOperand ∧ ∀ (o : ShiftOp) (s : State), ∃ (t u : State) (res res' : Byte) (c c' : Bool),
    exec (.lsr o) s = .next t ∧
    t = { s with
      a := t.a, mem := t.mem, flags := { s.flags with n := false, z := res == 0, c := c },
      pc := s.pc + BitVec.ofNat 16 o.mode.length, cycles := baseCycles s.params (.lsr o) } ∧
    WritesOperand s t res o ∧ 2 * res.toNat + c.toNat = (shiftValue s o).toNat ∧
    exec (.ror o) s = .next u ∧
    u = { s with
      a := u.a, mem := u.mem, flags := { s.flags with n := s.flags.c, z := res' == 0, c := c' },
      pc := s.pc + BitVec.ofNat 16 o.mode.length, cycles := baseCycles s.params (.ror o) } ∧
    WritesOperand s u res' o ∧ 2 * res'.toNat + c'.toNat = (shiftValue s o).toNat + 256 * s.flags.c.toNat

/-- R152, R153: ROR after ROL, and ROL after ROR, of A restores A and C. -/
def Obligations.RotatesInvert : Prop :=
  ∀ s : State, ∃ t u t' u',
    exec (.rol .acc) s = .next t ∧ exec (.ror .acc) t = .next u ∧ u.a = s.a ∧ u.flags.c = s.flags.c ∧
    exec (.ror .acc) s = .next t' ∧ exec (.rol .acc) t' = .next u' ∧ u'.a = s.a ∧ u'.flags.c = s.flags.c

/-- R154, R155: INC and DEC write the byte at `ea` back, one more or less mod 256, with its N and Z; C and V stay. -/
def Obligations.IncrementMemory : Prop :=
  RmwEncoding .inc 0xE6 0xF6 0xEE 0xFE ∧ RmwEncoding .dec 0xC6 0xD6 0xCE 0xDE ∧
  ∀ (m : RmwMode) (s : State), ∃ (t u : State) (res res' : Byte),
    exec (.inc m) s = .next t ∧
    t = { s with
      mem := t.mem, flags := { s.flags with n := res[7], z := res == 0 },
      pc := s.pc + BitVec.ofNat 16 m.toMem.mode.length, cycles := baseCycles s.params (.inc m) } ∧
    StoresByte s t (effAddr s m.toMem) res ∧
    res.toNat = ((s.memRead (effAddr s m.toMem)).toNat + 1) % 256 ∧
    exec (.dec m) s = .next u ∧
    u = { s with
      mem := u.mem, flags := { s.flags with n := res'[7], z := res' == 0 },
      pc := s.pc + BitVec.ofNat 16 m.toMem.mode.length, cycles := baseCycles s.params (.dec m) } ∧
    StoresByte s u (effAddr s m.toMem) res' ∧
    res'.toNat = ((s.memRead (effAddr s m.toMem)).toNat + 255) % 256

/-- R156 to R159: INX, INY, DEX, DEY. -/
def Obligations.IncrementRegisters : Prop :=
  Encodes .inx [0xE8] ∧ Encodes .iny [0xC8] ∧ Encodes .dex [0xCA] ∧ Encodes .dey [0x88] ∧
  ∀ s : State, ∃ x y x' y' : Byte,
    exec .inx s = .next { s with
      x := x, flags := { s.flags with n := x[7], z := x == 0 }, pc := s.pc + 1, cycles := tableCycles s.params 0xE8 2 } ∧
    x.toNat = (s.x.toNat + 1) % 256 ∧
    exec .iny s = .next { s with
      y := y, flags := { s.flags with n := y[7], z := y == 0 }, pc := s.pc + 1, cycles := tableCycles s.params 0xC8 2 } ∧
    y.toNat = (s.y.toNat + 1) % 256 ∧
    exec .dex s = .next { s with
      x := x', flags := { s.flags with n := x'[7], z := x' == 0 }, pc := s.pc + 1, cycles := tableCycles s.params 0xCA 2 } ∧
    x'.toNat = (s.x.toNat + 255) % 256 ∧
    exec .dey s = .next { s with
      y := y', flags := { s.flags with n := y'[7], z := y' == 0 }, pc := s.pc + 1, cycles := tableCycles s.params 0x88 2 } ∧
    y'.toNat = (s.y.toNat + 255) % 256

/-! ## Compares and branches (spec/43_compare_branch.md) -/

/-- R170: CMP sets C, Z and N from the unsigned comparison and the difference; no register and no memory is written.
That V stays is what the spec marks as derived ("V is unchanged, because the source's compare rule defines only C, Z
and N"). -/
def Obligations.CompareAccumulator : Prop :=
  AluEncoding .cmp 0xC9 0xC5 0xD5 0xCD 0xDD 0xD9 0xC1 0xD1 ∧
  ∀ (r : ReadOp) (s : State), ∃ n z c : Bool,
    exec (.cmp r) s = .next { s with
      flags := { s.flags with n := n, z := z, c := c },
      pc := s.pc + BitVec.ofNat 16 r.mode.length, cycles := readCost s (.cmp r) r } ∧
    (c = true ↔ s.a.toNat ≥ (readValue s r).toNat) ∧ (z = true ↔ s.a = readValue s r) ∧
    (n = true ↔ 128 ≤ (s.a.toNat + 256 - (readValue s r).toNat) % 256)

/-- R171, R172: CPX and CPY do the same with X and Y. -/
def Obligations.CompareIndex : Prop :=
  IndexCompareEncoding .cpx 0xE0 0xE4 0xEC ∧ IndexCompareEncoding .cpy 0xC0 0xC4 0xCC ∧
  ∀ (r : ReadOp) (s : State), ∀ p ∈ [(Instr.cpx r, s.x), (.cpy r, s.y)], ∃ n z c : Bool,
    exec p.1 s = .next { s with
      flags := { s.flags with n := n, z := z, c := c },
      pc := s.pc + BitVec.ofNat 16 r.mode.length, cycles := readCost s p.1 r } ∧
    (c = true ↔ p.2.toNat ≥ (readValue s r).toNat) ∧ (z = true ↔ p.2 = readValue s r) ∧
    (n = true ↔ 128 ≤ (p.2.toNat + 256 - (readValue s r).toNat) % 256)

/-- R173 to R181: the eight branches, with the flag each tests: PC and the cost, and nothing else. R173's 2 is
the base cost in the CYCLE_TABLE (R117, R118). -/
def Obligations.Branches : Prop :=
  ∀ (b1 : Byte) (s : State),
    ∀ p ∈ [(Instr.bpl b1, (0x10 : Byte), !s.flags.n), (.bmi b1, 0x30, s.flags.n), (.bvc b1, 0x50, !s.flags.v),
        (.bvs b1, 0x70, s.flags.v), (.bcc b1, 0x90, !s.flags.c), (.bcs b1, 0xB0, s.flags.c),
        (.bne b1, 0xD0, !s.flags.z), (.beq b1, 0xF0, s.flags.z)],
      Encodes p.1 [p.2.1, b1] ∧
      ∃ next target : Addr,
        next.toNat = (s.pc.toNat + 2) % 65536 ∧ (target.toNat : Int) = (s.pc.toNat + 2 + b1.toInt) % 65536 ∧
        exec p.1 s = .next { s with
          pc := if p.2.2 then target else next
          cycles := tableCycles s.params p.2.1 2 +
            if p.2.2 then (if target.toNat / 256 ≠ next.toNat / 256 then 2 else 1) else 0 }

/-! ## Jumps, subroutines, stack (spec/44_jump_stack.md) -/

/-- R190, R191: JMP goes to its operand, or to the word at its operand, whose high byte comes from the pointer's
page when `JMP_INDIRECT_PAGE_WRAP` is true and else from the next address mod 65536; nothing else changes. -/
def Obligations.Jumps : Prop :=
  (∀ lo hi : Byte, Encodes (.jmp (wordOf hi lo)) [0x4C, lo, hi] ∧ Encodes (.jmpInd (wordOf hi lo)) [0x6C, lo, hi]) ∧
  ∀ (w : Addr) (s : State), ∃ ea : Addr,
    exec (.jmp w) s = .next { s with pc := w, cycles := tableCycles s.params 0x4C 3 } ∧
    exec (.jmpInd w) s = .next { s with pc := ea, cycles := tableCycles s.params 0x6C 5 } ∧
    ea.toNat = byteAt s w.toNat + 256 * byteAt s
      (if s.params.jmpIndirectPageWrap then w.toNat / 256 * 256 + (w.toNat + 1) % 256 else (w.toNat + 1) % 65536)

/-- R192: JSR pushes the return address of the convention, high byte first, and jumps to its operand. -/
def Obligations.JumpToSubroutine : Prop :=
  (∀ lo hi : Byte, Encodes (.jsr (wordOf hi lo)) [0x20, lo, hi]) ∧
  ∀ (target : Addr) (s : State), ∃ (t : State) (ret : Addr),
    exec (.jsr target) s = .next t ∧
    t = { s with sp := t.sp, mem := t.mem, pc := target, cycles := tableCycles s.params 0x20 6 } ∧
    t.sp.toNat = (s.sp.toNat + 254) % 256 ∧
    ret.toNat = (s.pc.toNat + if s.params.returnConvention = .nextInstruction then 3 else 2) % 65536 ∧
    (t.memRead (stackCell s 0)).toNat = ret.toNat / 256 ∧ (t.memRead (stackCell s (-1))).toNat = ret.toNat % 256 ∧
    ∀ a, a ≠ stackCell s 0 → a ≠ stackCell s (-1) → t.memRead a = s.memRead a

/-- R193: RTS pulls the low byte, then the high byte, and goes there, or one past it under `nmos_last_byte`. -/
def Obligations.ReturnFromSubroutine : Prop :=
  Encodes .rts [0x60] ∧
  ∀ s : State, ∃ sp pc,
    exec .rts s = .next { s with sp := sp, pc := pc, cycles := tableCycles s.params 0x60 6 } ∧
    sp.toNat = (s.sp.toNat + 2) % 256 ∧
    pc.toNat = ((s.memRead (stackCell s 1)).toNat + 256 * (s.memRead (stackCell s 2)).toNat +
      if s.params.returnConvention = .nextInstruction then 0 else 1) % 65536

/-- R194: JSR, then RTS from any state with JSR's SP, stack bytes and convention, leaves `PC = pc0 + 3` and the SP
before JSR. The two conventions leave the same PC, SP and other bytes, and differ in the pushed word alone:
`pc0 + 3` or `pc0 + 2`. (R194 says that only its low byte differs; its high byte differs too when `pc0 + 3` begins a page.) -/
def Obligations.SubroutineLaw : Prop :=
  ∀ (target : Addr) (s : State), ∃ t, exec (.jsr target) s = .next t ∧
    (∀ w : State, w.sp = t.sp → w.params = s.params →
      w.memRead (stackCell s 0) = t.memRead (stackCell s 0) →
      w.memRead (stackCell s (-1)) = t.memRead (stackCell s (-1)) →
      ∃ u, exec .rts w = .next u ∧ u.pc = s.pc + 3 ∧ u.sp = s.sp) ∧
    (∀ c : ReturnConvention, ∃ t',
      exec (.jsr target) { s with params := { s.params with returnConvention := c } } = .next t' ∧
      t'.pc = t.pc ∧ t'.sp = t.sp ∧
      (∀ a, a ≠ stackCell s 0 → a ≠ stackCell s (-1) → t'.memRead a = t.memRead a) ∧
      let ret := (s.pc.toNat + if c = .nextInstruction then 3 else 2) % 65536
      (t'.memRead (stackCell s 0)).toNat = ret / 256 ∧ (t'.memRead (stackCell s (-1))).toNat = ret % 256)

/-- R195, R196, R197: PHA, PHP and PLP. -/
def Obligations.StackInstructions : Prop :=
  Encodes .pha [0x48] ∧ Encodes .php [0x08] ∧ Encodes .plp [0x28] ∧
  ∀ s : State, ∃ (t u : State) (sp : Byte) (b : Byte),
    exec .pha s = .next t ∧ t = { s with sp := t.sp, mem := t.mem, pc := s.pc + 1, cycles := tableCycles s.params 0x48 3 } ∧
    t.sp.toNat = (s.sp.toNat + 255) % 256 ∧ StoresByte s t (stackCell s 0) s.a ∧
    exec .php s = .next u ∧ u = { s with sp := u.sp, mem := u.mem, pc := s.pc + 1, cycles := tableCycles s.params 0x08 3 } ∧
    u.sp.toNat = (s.sp.toNat + 255) % 256 ∧ StoresByte s u (stackCell s 0) b ∧
    b.toNat = 128 * s.flags.n.toNat + 64 * s.flags.v.toNat + 0x30 + 8 * s.flags.d.toNat + 4 * s.flags.i.toNat +
      2 * s.flags.z.toNat + s.flags.c.toNat ∧
    sp.toNat = (s.sp.toNat + 1) % 256 ∧
    (let p := s.memRead (stackCell s 1)
     exec .plp s = .next { s with
       sp := sp, flags := { n := p[7], v := p[6], d := p[3], i := p[2], z := p[1], c := p[0] },
       pc := s.pc + 1, cycles := tableCycles s.params 0x28 4 })

/-- R198: PLA. That it writes N and Z is what the spec marks as derived from the source's invariant. -/
def Obligations.PullAccumulator : Prop :=
  Encodes .pla [0x68] ∧
  ∀ s : State, ∃ sp : Byte,
    let p := s.memRead (stackCell s 1)
    exec .pla s = .next { s with
      a := p, sp := sp, flags := { s.flags with n := p[7], z := p == 0 }, pc := s.pc + 1, cycles := tableCycles s.params 0x68 4 } ∧
    sp.toNat = (s.sp.toNat + 1) % 256

/-- R199, which the spec marks as derived: the four push-and-pull laws; as many pulls as pushes restore SP; and the
257th push of a sequence overwrites the byte of the first. -/
def Obligations.StackLaws : Prop :=
  (∀ s : State, ∃ t u t1 t2 u1 u2,
    exec .pha s = .next t ∧ exec .php s = .next u ∧
    exec .pla t = .next t1 ∧ t1.a = s.a ∧ t1.sp = s.sp ∧ t1.flags.n = s.a[7] ∧ t1.flags.z = (s.a == 0) ∧
    exec .plp u = .next u1 ∧ u1.flags = s.flags ∧ u1.sp = s.sp ∧
    exec .plp t = .next t2 ∧
    t2.flags = { n := s.a[7], v := s.a[6], d := s.a[3], i := s.a[2], z := s.a[1], c := s.a[0] } ∧
    exec .pla u = .next u2 ∧ u2.a = s.flags.pack ∧ u2.a[5] = true ∧ u2.a[4] = true) ∧
  ∀ (bytes : List Byte) (s : State),
    (State.pull^[bytes.length] (bytes.foldl State.push s)).sp = s.sp ∧
    ∀ last : Byte, bytes.length = 256 → ((bytes ++ [last]).foldl State.push s).memRead (stackCell s 0) = last

/-- R30, R31: the layout of the flags byte, and its two round trips. -/
def Obligations.FlagsByte : Prop :=
  (∀ f : Flags, f.pack.toNat = 128 * f.n.toNat + 64 * f.v.toNat + 32 + 16 + 8 * f.d.toNat + 4 * f.i.toNat +
    2 * f.z.toNat + f.c.toNat ∧ Flags.unpack f.pack = f) ∧
  ∀ b : Byte, (Flags.unpack b).pack = b ||| 0x30 ∧
    Flags.unpack b = { n := b[7], v := b[6], d := b[3], i := b[2], z := b[1], c := b[0] }

/-! ## Transfers, flag operations, NOP (spec/45_transfer_flag_nop.md) -/

/-- R210 to R215: the six transfers; TXS alone writes no flag. -/
def Obligations.Transfers : Prop :=
  Encodes .tax [0xAA] ∧ Encodes .tay [0xA8] ∧ Encodes .txa [0x8A] ∧ Encodes .tya [0x98] ∧ Encodes .tsx [0xBA] ∧
  Encodes .txs [0x9A] ∧
  ∀ s : State,
    let nz (v : Byte) : Flags := { s.flags with n := v[7], z := v == 0 }
    exec .tax s = .next { s with x := s.a, flags := nz s.a, pc := s.pc + 1, cycles := tableCycles s.params 0xAA 2 } ∧
    exec .tay s = .next { s with y := s.a, flags := nz s.a, pc := s.pc + 1, cycles := tableCycles s.params 0xA8 2 } ∧
    exec .txa s = .next { s with a := s.x, flags := nz s.x, pc := s.pc + 1, cycles := tableCycles s.params 0x8A 2 } ∧
    exec .tya s = .next { s with a := s.y, flags := nz s.y, pc := s.pc + 1, cycles := tableCycles s.params 0x98 2 } ∧
    exec .tsx s = .next { s with x := s.sp, flags := nz s.sp, pc := s.pc + 1, cycles := tableCycles s.params 0xBA 2 } ∧
    exec .txs s = .next { s with sp := s.x, pc := s.pc + 1, cycles := tableCycles s.params 0x9A 2 }

/-- R216 to R222, R224: each flag operation changes exactly its flag, and NOP none; PC goes to `pc0 + 1`. The
cost is the row's in the CYCLE_TABLE in force, 2 in the default one. -/
def Obligations.FlagOperations : Prop :=
  Encodes .clc [0x18] ∧ Encodes .cld [0xD8] ∧ Encodes .cli [0x58] ∧ Encodes .clv [0xB8] ∧ Encodes .sec [0x38] ∧
  Encodes .sed [0xF8] ∧ Encodes .sei [0x78] ∧ Encodes .nop [0xEA] ∧
  ∀ s : State,
    let after (op : Byte) (f : Flags) : State :=
      { s with flags := f, pc := s.pc + 1, cycles := tableCycles s.params op 2 }
    exec .clc s = .next (after 0x18 { s.flags with c := false }) ∧ exec .cld s = .next (after 0xD8 { s.flags with d := false }) ∧
    exec .cli s = .next (after 0x58 { s.flags with i := false }) ∧ exec .clv s = .next (after 0xB8 { s.flags with v := false }) ∧
    exec .sec s = .next (after 0x38 { s.flags with c := true }) ∧ exec .sed s = .next (after 0xF8 { s.flags with d := true }) ∧
    exec .sei s = .next (after 0x78 { s.flags with i := true }) ∧ exec .nop s = .next (after 0xEA s.flags)

/-! ## Loads and stores (spec/46_load_store.md) -/

/-- R240, R241, R242: the loads, with their own encodings; the effect is given for every operand term (log entry 14).
Then what the operand `M` of every read-class instruction is: the immediate byte, or the byte at the address that the
resolver gives. -/
def Obligations.Loads : Prop :=
  AluEncoding .lda 0xA9 0xA5 0xB5 0xAD 0xBD 0xB9 0xA1 0xB1 ∧
  (∀ b lo hi : Byte, Encodes (.ldx (.imm b)) [0xA2, b] ∧ Encodes (.ldx (.mem (.zp b))) [0xA6, b] ∧
    Encodes (.ldx (.mem (.zpY b))) [0xB6, b] ∧ Encodes (.ldx (.mem (.abs (wordOf hi lo)))) [0xAE, lo, hi] ∧
    Encodes (.ldx (.mem (.absY (wordOf hi lo)))) [0xBE, lo, hi] ∧ Encodes (.ldy (.imm b)) [0xA0, b] ∧
    Encodes (.ldy (.mem (.zp b))) [0xA4, b] ∧ Encodes (.ldy (.mem (.zpX b))) [0xB4, b] ∧
    Encodes (.ldy (.mem (.abs (wordOf hi lo)))) [0xAC, lo, hi] ∧
    Encodes (.ldy (.mem (.absX (wordOf hi lo)))) [0xBC, lo, hi]) ∧
  ∀ (r : ReadOp) (s : State),
    let m := readValue s r
    let t (i : Instr) : State := { s with
      flags := { s.flags with n := m[7], z := m == 0 }
      pc := s.pc + BitVec.ofNat 16 r.mode.length, cycles := readCost s i r }
    exec (.lda r) s = .next { t (.lda r) with a := m } ∧ exec (.ldx r) s = .next { t (.ldx r) with x := m } ∧
    exec (.ldy r) s = .next { t (.ldy r) with y := m } ∧
    (∀ v : Byte, readValue s (.imm v) = v) ∧
    ∀ o : MemMode, readValue s (.mem o) = s.memRead (effAddr s o) ∧ effAddr s o = (MemMode.resolve s o).ea

/-- R243, R244, R245: the stores write one byte at `ea`, no flag, and no register but PC. -/
def Obligations.Stores : Prop :=
  (∀ b lo hi : Byte, Encodes (.sta (.zp b)) [0x85, b] ∧ Encodes (.sta (.zpX b)) [0x95, b] ∧
    Encodes (.sta (.abs (wordOf hi lo))) [0x8D, lo, hi] ∧ Encodes (.sta (.absX (wordOf hi lo))) [0x9D, lo, hi] ∧
    Encodes (.sta (.absY (wordOf hi lo))) [0x99, lo, hi] ∧ Encodes (.sta (.indX b)) [0x81, b] ∧
    Encodes (.sta (.indY b)) [0x91, b] ∧ Encodes (.stx (.zp b)) [0x86, b] ∧ Encodes (.stx (.zpY b)) [0x96, b] ∧
    Encodes (.stx (.abs (wordOf hi lo))) [0x8E, lo, hi] ∧ Encodes (.sty (.zp b)) [0x84, b] ∧
    Encodes (.sty (.zpX b)) [0x94, b] ∧ Encodes (.sty (.abs (wordOf hi lo))) [0x8C, lo, hi]) ∧
  ∀ (m : MemMode) (s : State), ∀ p ∈ [(Instr.sta m, s.a), (.stx m, s.x), (.sty m, s.y)], ∃ t,
    exec p.1 s = .next t ∧ StoresByte s t (effAddr s m) p.2 ∧
    t = { s with
      mem := t.mem, pc := s.pc + BitVec.ofNat 16 m.mode.length, cycles := baseCycles s.params p.1 }

/-! ## The software trap (spec/47_system.md) -/

/-- R260: BRK pushes `pc0 + 2` and the flags byte with bits 5 and 4 set and the old I, sets I and no other
flag, and loads PC from 0xFFFE and 0xFFFF, whatever I and the parameters hold. -/
def Obligations.SoftwareBreak : Prop :=
  Encodes .brk [0x00] ∧
  ∀ s : State, ∃ t, exec .brk s = .next t ∧
    t = { s with
      sp := t.sp, mem := t.mem, flags := { s.flags with i := true }, pc := t.pc, cycles := tableCycles s.params 0x00 7 } ∧
    t.sp.toNat = (s.sp.toNat + 253) % 256 ∧
    t.pc.toNat = byteAt s 0xFFFE + 256 * byteAt s 0xFFFF ∧
    (t.memRead (stackCell s 0)).toNat = (s.pc.toNat + 2) % 65536 / 256 ∧
    (t.memRead (stackCell s (-1))).toNat = (s.pc.toNat + 2) % 65536 % 256 ∧
    (t.memRead (stackCell s (-2))).toNat = 128 * s.flags.n.toNat + 64 * s.flags.v.toNat + 0x30 +
      8 * s.flags.d.toNat + 4 * s.flags.i.toNat + 2 * s.flags.z.toNat + s.flags.c.toNat ∧
    ∀ a, a ≠ stackCell s 0 → a ≠ stackCell s (-1) → a ≠ stackCell s (-2) → t.memRead a = s.memRead a

/-- R261: RTI pulls the flags byte, then PC's low and high byte, and adds nothing to PC. -/
def Obligations.ReturnFromInterrupt : Prop :=
  Encodes .rti [0x40] ∧
  ∀ s : State, ∃ sp pc,
    let b := s.memRead (stackCell s 1)
    exec .rti s = .next { s with
      sp := sp, pc := pc, flags := { n := b[7], v := b[6], d := b[3], i := b[2], z := b[1], c := b[0] },
      cycles := tableCycles s.params 0x40 6 } ∧
    sp.toNat = (s.sp.toNat + 3) % 256 ∧
    pc.toNat = (s.memRead (stackCell s 2)).toNat + 256 * (s.memRead (stackCell s 3)).toNat

/-- R262, which the spec marks as derived: BRK, then RTI from any state with BRK's SP and its three stack bytes,
restores all six flags and SP and leaves `PC = pc0 + 2` and the three stack bytes as BRK wrote them. -/
def Obligations.TrapRoundTrip : Prop :=
  ∀ s : State, ∃ t, exec .brk s = .next t ∧
    t.memRead (stackCell s 0) = highByte (s.pc + 2) ∧ t.memRead (stackCell s (-1)) = lowByte (s.pc + 2) ∧
    t.memRead (stackCell s (-2)) = s.flags.pack ∧
    ∀ w : State, w.sp = t.sp →
      (∀ n ∈ [(0 : Int), -1, -2], w.memRead (stackCell s n) = t.memRead (stackCell s n)) →
      ∃ u, exec .rti w = .next u ∧ u.flags = s.flags ∧ u.sp = s.sp ∧ u.pc = s.pc + 2 ∧ u.mem = w.mem

/-! ## The end of a run (spec/70_reset_and_hazards.md R312) -/

/-- R312, R272: a step at the halt idiom changes nothing but the returned count; and a run with a budget of at least 1
ends, within `budget` steps, at a sum at most 6 past it: an excess the spec marks as derived from R118. Where the
CYCLE_TABLE lists counts other than the default's, each at least 1 and at most `m`, the excess is at most `m + 1` if that
is more. The bound on the steps and the premise of a budget of at least 1 are the model's (log entry 15). -/
def Obligations.EndOfRun : Prop :=
  (∀ s : State, haltIdiom s = true → step s = .next { s with cycles := tableCycles s.params 0x4C 3 }) ∧
  ∀ (budget m : Nat) (s : State), 1 ≤ budget → (∀ e ∈ s.params.cycleTable, 1 ≤ e.2 ∧ e.2 ≤ m) →
    ∃ sum t, runToEnd budget budget 0 s = some (sum, t) ∧ sum ≤ budget + max 6 (m + 1) ∧
      (budget ≤ sum ∨ haltIdiom t = true)
end

