-- ==== Sys2Proof/Laws/Decode.lean ====
section
/-! SUPPORT. What the decoder answers, by the number of operand bytes the opcode takes (spec/30_encoding.md R81, R89). -/

namespace Sys2Proof

theorem Mode.operandBytes_le (m : Mode) : m.operandBytes ≤ 2 := by cases m <;> decide

/-- An opcode with no operand bytes. -/
theorem decode_zero {op : Byte} (rest : List Byte) (h : (instrOf op 0 0).mode.operandBytes = 0) :
    decode (op :: rest) = .ok (instrOf op 0 0, rest) := by
  simp only [decode, h]

/-- An opcode with one operand byte. -/
theorem decode_one {op : Byte} (b1 : Byte) (rest : List Byte) (h : (instrOf op 0 0).mode.operandBytes = 1) :
    decode (op :: b1 :: rest) = .ok (instrOf op b1 0, rest) := by
  simp only [decode, h]

/-- An opcode with two operand bytes. -/
theorem decode_two {op : Byte} (b1 b2 : Byte) (rest : List Byte) (h : (instrOf op 0 0).mode.operandBytes = 2) :
    decode (op :: b1 :: b2 :: rest) = .ok (instrOf op b1 b2, rest) := by
  simp only [decode, h]

end Sys2Proof
end

