-- ==== Sys2Proof/Laws/Ops.lean ====
section
/-! SUPPORT. For each shared operation, once, what it does: its fields (true by rfl) and, for the operations that
reach memory, what every byte reads afterwards. The provers cite these instead of unfolding the operations. -/

namespace Sys2Proof.Machine

/-! ### Addresses -/

@[simp] theorem Addr.toNat_inj {a b : Addr} : a.toNat = b.toNat ↔ a = b := BitVec.toNat_inj

/-! ### memRead and memWrite -/

/-- Reading is a function of the memory alone: no register takes part. -/
theorem State.memRead_eq (s : State) (a : Addr) : s.memRead a = s.mem.read a.toNat := rfl

/-- What every byte reads after a write (R50). -/
theorem State.memRead_memWrite (s : State) (a b : Addr) (v : Byte) :
    (s.memWrite a v).memRead b = if b = a then v else s.memRead b := by
  simp [State.memRead, State.memWrite, Memory.read_write]

/-- A write keeps the canonical form. -/
theorem State.wf_memWrite (s : State) (a : Addr) (v : Byte) (h : Memory.wf s.mem = true) :
    Memory.wf (s.memWrite a v).mem = true := Memory.wf_write _ _ _ h a.isLt

/-! ### memWrite -/

@[simp] theorem State.memWrite_a (s : State) (w : Addr) (v : Byte) : (s.memWrite w v).a = s.a := rfl
@[simp] theorem State.memWrite_x (s : State) (w : Addr) (v : Byte) : (s.memWrite w v).x = s.x := rfl
@[simp] theorem State.memWrite_y (s : State) (w : Addr) (v : Byte) : (s.memWrite w v).y = s.y := rfl
@[simp] theorem State.memWrite_sp (s : State) (w : Addr) (v : Byte) : (s.memWrite w v).sp = s.sp := rfl
@[simp] theorem State.memWrite_pc (s : State) (w : Addr) (v : Byte) : (s.memWrite w v).pc = s.pc := rfl
@[simp] theorem State.memWrite_flags (s : State) (w : Addr) (v : Byte) : (s.memWrite w v).flags = s.flags := rfl
@[simp] theorem State.memWrite_mem (s : State) (w : Addr) (v : Byte) : (s.memWrite w v).mem = s.mem.write w.toNat v := rfl
@[simp] theorem State.memWrite_log (s : State) (w : Addr) (v : Byte) : (s.memWrite w v).log = s.log := rfl
@[simp] theorem State.memWrite_cycles (s : State) (w : Addr) (v : Byte) : (s.memWrite w v).cycles = s.cycles := rfl
@[simp] theorem State.memWrite_params (s : State) (w : Addr) (v : Byte) : (s.memWrite w v).params = s.params := rfl

/-! ### push -/

@[simp] theorem State.push_a (s : State) (v : Byte) : (s.push v).a = s.a := rfl
@[simp] theorem State.push_x (s : State) (v : Byte) : (s.push v).x = s.x := rfl
@[simp] theorem State.push_y (s : State) (v : Byte) : (s.push v).y = s.y := rfl
@[simp] theorem State.push_sp (s : State) (v : Byte) : (s.push v).sp = s.sp - 1 := rfl
@[simp] theorem State.push_pc (s : State) (v : Byte) : (s.push v).pc = s.pc := rfl
@[simp] theorem State.push_flags (s : State) (v : Byte) : (s.push v).flags = s.flags := rfl
@[simp] theorem State.push_mem (s : State) (v : Byte) : (s.push v).mem = s.mem.write (stackAddr s.sp).toNat v := rfl
@[simp] theorem State.push_log (s : State) (v : Byte) : (s.push v).log = s.log := rfl
@[simp] theorem State.push_cycles (s : State) (v : Byte) : (s.push v).cycles = s.cycles := rfl
@[simp] theorem State.push_params (s : State) (v : Byte) : (s.push v).params = s.params := rfl

/-! ### pull -/

@[simp] theorem State.pull_a (s : State) : s.pull.a = s.a := rfl
@[simp] theorem State.pull_x (s : State) : s.pull.x = s.x := rfl
@[simp] theorem State.pull_y (s : State) : s.pull.y = s.y := rfl
@[simp] theorem State.pull_sp (s : State) : s.pull.sp = s.sp + 1 := rfl
@[simp] theorem State.pull_pc (s : State) : s.pull.pc = s.pc := rfl
@[simp] theorem State.pull_flags (s : State) : s.pull.flags = s.flags := rfl
@[simp] theorem State.pull_mem (s : State) : s.pull.mem = s.mem := rfl
@[simp] theorem State.pull_log (s : State) : s.pull.log = s.log := rfl
@[simp] theorem State.pull_cycles (s : State) : s.pull.cycles = s.cycles := rfl
@[simp] theorem State.pull_params (s : State) : s.pull.params = s.params := rfl

/-! ### pushWord -/

@[simp] theorem State.pushWord_a (s : State) (w : Addr) : (s.pushWord w).a = s.a := by
  simp only [State.pushWord, State.push_a]
@[simp] theorem State.pushWord_x (s : State) (w : Addr) : (s.pushWord w).x = s.x := by
  simp only [State.pushWord, State.push_x]
@[simp] theorem State.pushWord_y (s : State) (w : Addr) : (s.pushWord w).y = s.y := by
  simp only [State.pushWord, State.push_y]
@[simp] theorem State.pushWord_sp (s : State) (w : Addr) : (s.pushWord w).sp = s.sp - 1 - 1 := by
  simp only [State.pushWord, State.push_sp]
@[simp] theorem State.pushWord_pc (s : State) (w : Addr) : (s.pushWord w).pc = s.pc := by
  simp only [State.pushWord, State.push_pc]
@[simp] theorem State.pushWord_flags (s : State) (w : Addr) : (s.pushWord w).flags = s.flags := by
  simp only [State.pushWord, State.push_flags]
@[simp] theorem State.pushWord_mem (s : State) (w : Addr) : (s.pushWord w).mem = (s.mem.write (stackAddr s.sp).toNat (highByte w)).write (stackAddr (s.sp - 1)).toNat (lowByte w) := by
  simp only [State.pushWord, State.push_mem, State.push_sp]
@[simp] theorem State.pushWord_log (s : State) (w : Addr) : (s.pushWord w).log = s.log := by
  simp only [State.pushWord, State.push_log]
@[simp] theorem State.pushWord_cycles (s : State) (w : Addr) : (s.pushWord w).cycles = s.cycles := by
  simp only [State.pushWord, State.push_cycles]
@[simp] theorem State.pushWord_params (s : State) (w : Addr) : (s.pushWord w).params = s.params := by
  simp only [State.pushWord, State.push_params]

/-! ### setNZ -/

@[simp] theorem State.setNZ_a (s : State) (r : Byte) : (s.setNZ r).a = s.a := rfl
@[simp] theorem State.setNZ_x (s : State) (r : Byte) : (s.setNZ r).x = s.x := rfl
@[simp] theorem State.setNZ_y (s : State) (r : Byte) : (s.setNZ r).y = s.y := rfl
@[simp] theorem State.setNZ_sp (s : State) (r : Byte) : (s.setNZ r).sp = s.sp := rfl
@[simp] theorem State.setNZ_pc (s : State) (r : Byte) : (s.setNZ r).pc = s.pc := rfl
@[simp] theorem State.setNZ_flags (s : State) (r : Byte) : (s.setNZ r).flags = s.flags.setNZ r := rfl
@[simp] theorem State.setNZ_mem (s : State) (r : Byte) : (s.setNZ r).mem = s.mem := rfl
@[simp] theorem State.setNZ_log (s : State) (r : Byte) : (s.setNZ r).log = s.log := rfl
@[simp] theorem State.setNZ_cycles (s : State) (r : Byte) : (s.setNZ r).cycles = s.cycles := rfl
@[simp] theorem State.setNZ_params (s : State) (r : Byte) : (s.setNZ r).params = s.params := rfl

/-! ### finishAt -/

@[simp] theorem State.finishAt_a (s : State) (w : Addr) (n : Nat) : (s.finishAt w n).a = s.a := rfl
@[simp] theorem State.finishAt_x (s : State) (w : Addr) (n : Nat) : (s.finishAt w n).x = s.x := rfl
@[simp] theorem State.finishAt_y (s : State) (w : Addr) (n : Nat) : (s.finishAt w n).y = s.y := rfl
@[simp] theorem State.finishAt_sp (s : State) (w : Addr) (n : Nat) : (s.finishAt w n).sp = s.sp := rfl
@[simp] theorem State.finishAt_pc (s : State) (w : Addr) (n : Nat) : (s.finishAt w n).pc = w := rfl
@[simp] theorem State.finishAt_flags (s : State) (w : Addr) (n : Nat) : (s.finishAt w n).flags = s.flags := rfl
@[simp] theorem State.finishAt_mem (s : State) (w : Addr) (n : Nat) : (s.finishAt w n).mem = s.mem := rfl
@[simp] theorem State.finishAt_log (s : State) (w : Addr) (n : Nat) : (s.finishAt w n).log = s.log := rfl
@[simp] theorem State.finishAt_cycles (s : State) (w : Addr) (n : Nat) : (s.finishAt w n).cycles = n := rfl
@[simp] theorem State.finishAt_params (s : State) (w : Addr) (n : Nat) : (s.finishAt w n).params = s.params := rfl

/-! ### advance -/

@[simp] theorem State.advance_a (s : State) (l n : Nat) : (s.advance l n).a = s.a := rfl
@[simp] theorem State.advance_x (s : State) (l n : Nat) : (s.advance l n).x = s.x := rfl
@[simp] theorem State.advance_y (s : State) (l n : Nat) : (s.advance l n).y = s.y := rfl
@[simp] theorem State.advance_sp (s : State) (l n : Nat) : (s.advance l n).sp = s.sp := rfl
@[simp] theorem State.advance_pc (s : State) (l n : Nat) : (s.advance l n).pc = s.pc + BitVec.ofNat 16 l := rfl
@[simp] theorem State.advance_flags (s : State) (l n : Nat) : (s.advance l n).flags = s.flags := rfl
@[simp] theorem State.advance_mem (s : State) (l n : Nat) : (s.advance l n).mem = s.mem := rfl
@[simp] theorem State.advance_log (s : State) (l n : Nat) : (s.advance l n).log = s.log := rfl
@[simp] theorem State.advance_cycles (s : State) (l n : Nat) : (s.advance l n).cycles = n := rfl
@[simp] theorem State.advance_params (s : State) (l n : Nat) : (s.advance l n).params = s.params := rfl

/-! ### loadA -/

@[simp] theorem State.loadA_a (s : State) (v : Byte) : (s.loadA v).a = v := rfl
@[simp] theorem State.loadA_x (s : State) (v : Byte) : (s.loadA v).x = s.x := rfl
@[simp] theorem State.loadA_y (s : State) (v : Byte) : (s.loadA v).y = s.y := rfl
@[simp] theorem State.loadA_sp (s : State) (v : Byte) : (s.loadA v).sp = s.sp := rfl
@[simp] theorem State.loadA_pc (s : State) (v : Byte) : (s.loadA v).pc = s.pc := rfl
@[simp] theorem State.loadA_flags (s : State) (v : Byte) : (s.loadA v).flags = s.flags.setNZ v := rfl
@[simp] theorem State.loadA_mem (s : State) (v : Byte) : (s.loadA v).mem = s.mem := rfl
@[simp] theorem State.loadA_log (s : State) (v : Byte) : (s.loadA v).log = s.log := rfl
@[simp] theorem State.loadA_cycles (s : State) (v : Byte) : (s.loadA v).cycles = s.cycles := rfl
@[simp] theorem State.loadA_params (s : State) (v : Byte) : (s.loadA v).params = s.params := rfl

/-! ### loadX -/

@[simp] theorem State.loadX_a (s : State) (v : Byte) : (s.loadX v).a = s.a := rfl
@[simp] theorem State.loadX_x (s : State) (v : Byte) : (s.loadX v).x = v := rfl
@[simp] theorem State.loadX_y (s : State) (v : Byte) : (s.loadX v).y = s.y := rfl
@[simp] theorem State.loadX_sp (s : State) (v : Byte) : (s.loadX v).sp = s.sp := rfl
@[simp] theorem State.loadX_pc (s : State) (v : Byte) : (s.loadX v).pc = s.pc := rfl
@[simp] theorem State.loadX_flags (s : State) (v : Byte) : (s.loadX v).flags = s.flags.setNZ v := rfl
@[simp] theorem State.loadX_mem (s : State) (v : Byte) : (s.loadX v).mem = s.mem := rfl
@[simp] theorem State.loadX_log (s : State) (v : Byte) : (s.loadX v).log = s.log := rfl
@[simp] theorem State.loadX_cycles (s : State) (v : Byte) : (s.loadX v).cycles = s.cycles := rfl
@[simp] theorem State.loadX_params (s : State) (v : Byte) : (s.loadX v).params = s.params := rfl

/-! ### loadY -/

@[simp] theorem State.loadY_a (s : State) (v : Byte) : (s.loadY v).a = s.a := rfl
@[simp] theorem State.loadY_x (s : State) (v : Byte) : (s.loadY v).x = s.x := rfl
@[simp] theorem State.loadY_y (s : State) (v : Byte) : (s.loadY v).y = v := rfl
@[simp] theorem State.loadY_sp (s : State) (v : Byte) : (s.loadY v).sp = s.sp := rfl
@[simp] theorem State.loadY_pc (s : State) (v : Byte) : (s.loadY v).pc = s.pc := rfl
@[simp] theorem State.loadY_flags (s : State) (v : Byte) : (s.loadY v).flags = s.flags.setNZ v := rfl
@[simp] theorem State.loadY_mem (s : State) (v : Byte) : (s.loadY v).mem = s.mem := rfl
@[simp] theorem State.loadY_log (s : State) (v : Byte) : (s.loadY v).log = s.log := rfl
@[simp] theorem State.loadY_cycles (s : State) (v : Byte) : (s.loadY v).cycles = s.cycles := rfl
@[simp] theorem State.loadY_params (s : State) (v : Byte) : (s.loadY v).params = s.params := rfl

/-! ### addToA -/

@[simp] theorem State.addToA_a (s : State) (m : Byte) : (s.addToA m).a = addByte s.a m s.flags.c := rfl
@[simp] theorem State.addToA_x (s : State) (m : Byte) : (s.addToA m).x = s.x := rfl
@[simp] theorem State.addToA_y (s : State) (m : Byte) : (s.addToA m).y = s.y := rfl
@[simp] theorem State.addToA_sp (s : State) (m : Byte) : (s.addToA m).sp = s.sp := rfl
@[simp] theorem State.addToA_pc (s : State) (m : Byte) : (s.addToA m).pc = s.pc := rfl
@[simp] theorem State.addToA_flags (s : State) (m : Byte) : (s.addToA m).flags = s.flags.afterAdd s.a m := rfl
@[simp] theorem State.addToA_mem (s : State) (m : Byte) : (s.addToA m).mem = s.mem := rfl
@[simp] theorem State.addToA_log (s : State) (m : Byte) : (s.addToA m).log = s.log := rfl
@[simp] theorem State.addToA_cycles (s : State) (m : Byte) : (s.addToA m).cycles = s.cycles := rfl
@[simp] theorem State.addToA_params (s : State) (m : Byte) : (s.addToA m).params = s.params := rfl

/-! ### takeBreak -/

@[simp] theorem State.takeBreak_a (s : State) : s.takeBreak.a = s.a := by
  simp only [State.takeBreak, State.setPc_a, State.setFlags_a, State.push_a, State.pushWord_a]
@[simp] theorem State.takeBreak_x (s : State) : s.takeBreak.x = s.x := by
  simp only [State.takeBreak, State.setPc_x, State.setFlags_x, State.push_x, State.pushWord_x]
@[simp] theorem State.takeBreak_y (s : State) : s.takeBreak.y = s.y := by
  simp only [State.takeBreak, State.setPc_y, State.setFlags_y, State.push_y, State.pushWord_y]
@[simp] theorem State.takeBreak_sp (s : State) : s.takeBreak.sp = s.sp - 1 - 1 - 1 := by
  simp only [State.takeBreak, State.setPc_sp, State.setFlags_sp, State.push_sp, State.pushWord_sp]
@[simp] theorem State.takeBreak_pc (s : State) : s.takeBreak.pc = ((s.pushWord (s.pc + 2)).push s.flags.pack).memRead16 breakVector := rfl
@[simp] theorem State.takeBreak_flags (s : State) : s.takeBreak.flags = { s.flags with i := true } := by
  simp only [State.takeBreak, State.setPc_flags, State.setFlags_flags, State.push_flags, State.pushWord_flags]
@[simp] theorem State.takeBreak_mem (s : State) : s.takeBreak.mem = ((s.pushWord (s.pc + 2)).push s.flags.pack).mem := by
  simp only [State.takeBreak, State.setPc_mem, State.setFlags_mem]
@[simp] theorem State.takeBreak_log (s : State) : s.takeBreak.log = s.log := by
  simp only [State.takeBreak, State.setPc_log, State.setFlags_log, State.push_log, State.pushWord_log]
@[simp] theorem State.takeBreak_cycles (s : State) : s.takeBreak.cycles = s.cycles := by
  simp only [State.takeBreak, State.setPc_cycles, State.setFlags_cycles, State.push_cycles, State.pushWord_cycles]
@[simp] theorem State.takeBreak_params (s : State) : s.takeBreak.params = s.params := by
  simp only [State.takeBreak, State.setPc_params, State.setFlags_params, State.push_params, State.pushWord_params]

/-! ### returnFromBreak -/

@[simp] theorem State.returnFromBreak_a (s : State) : s.returnFromBreak.a = s.a := by
  simp only [State.returnFromBreak, State.setPc_a, State.pull_a, State.setFlags_a]
@[simp] theorem State.returnFromBreak_x (s : State) : s.returnFromBreak.x = s.x := by
  simp only [State.returnFromBreak, State.setPc_x, State.pull_x, State.setFlags_x]
@[simp] theorem State.returnFromBreak_y (s : State) : s.returnFromBreak.y = s.y := by
  simp only [State.returnFromBreak, State.setPc_y, State.pull_y, State.setFlags_y]
@[simp] theorem State.returnFromBreak_sp (s : State) : s.returnFromBreak.sp = s.sp + 1 + 1 + 1 := by
  simp only [State.returnFromBreak, State.setPc_sp, State.pull_sp, State.setFlags_sp]
@[simp] theorem State.returnFromBreak_pc (s : State) : s.returnFromBreak.pc = s.pull.pulledWord := rfl
@[simp] theorem State.returnFromBreak_flags (s : State) : s.returnFromBreak.flags = Flags.unpack s.pulled := by
  simp only [State.returnFromBreak, State.setPc_flags, State.pull_flags, State.setFlags_flags]
@[simp] theorem State.returnFromBreak_mem (s : State) : s.returnFromBreak.mem = s.mem := by
  simp only [State.returnFromBreak, State.setPc_mem, State.pull_mem, State.setFlags_mem]
@[simp] theorem State.returnFromBreak_log (s : State) : s.returnFromBreak.log = s.log := by
  simp only [State.returnFromBreak, State.setPc_log, State.pull_log, State.setFlags_log]
@[simp] theorem State.returnFromBreak_cycles (s : State) : s.returnFromBreak.cycles = s.cycles := by
  simp only [State.returnFromBreak, State.setPc_cycles, State.pull_cycles, State.setFlags_cycles]
@[simp] theorem State.returnFromBreak_params (s : State) : s.returnFromBreak.params = s.params := by
  simp only [State.returnFromBreak, State.setPc_params, State.pull_params, State.setFlags_params]

/-! ### The stack and memory -/

/-- What every byte reads after a push (R60). -/
theorem State.memRead_push (s : State) (v : Byte) (b : Addr) :
    (s.push v).memRead b = if b = stackAddr s.sp then v else s.memRead b := s.memRead_memWrite _ _ _

@[simp] theorem State.memRead_pull (s : State) (b : Addr) : s.pull.memRead b = s.memRead b := rfl

/-- Two stack cells are one only if their offsets are (R25). -/
theorem stackAddr_inj {p q : Byte} : stackAddr p = stackAddr q ↔ p = q := by
  unfold stackAddr stackBase zext16
  constructor
  · intro h
    have := congrArg BitVec.toNat h
    simp only [BitVec.toNat_add, BitVec.toNat_setWidth] at this
    have hp := p.isLt
    have hq := q.isLt
    exact BitVec.eq_of_toNat_eq (by omega)
  · rintro rfl
    rfl

/-- A stack cell's address, as a number (R25). -/
theorem stackAddr_toNat (p : Byte) : (stackAddr p).toNat = 256 + p.toNat := by
  have hp := p.isLt
  have hb : stackBase.toNat = 256 := rfl
  simp only [stackAddr, zext16, BitVec.toNat_add, BitVec.toNat_setWidth, hb]
  omega

theorem State.wf_push (s : State) (v : Byte) (h : Memory.wf s.mem = true) : Memory.wf (s.push v).mem = true :=
  s.wf_memWrite _ _ h

theorem State.wf_pushWord (s : State) (w : Addr) (h : Memory.wf s.mem = true) : Memory.wf (s.pushWord w).mem = true :=
  (s.push _).wf_push _ (s.wf_push _ h)

theorem State.wf_takeBreak (s : State) (h : Memory.wf s.mem = true) : Memory.wf s.takeBreak.mem = true := by
  rw [State.takeBreak_mem]
  exact (s.pushWord _).wf_push _ (s.wf_pushWord _ h)

/-! ### Words and bytes -/

/-- `hi:lo` as a number (R11). -/
theorem wordOf_toNat (hi lo : Byte) : (wordOf hi lo).toNat = hi.toNat * 256 + lo.toNat := by
  have := hi.isLt
  have := lo.isLt
  simp only [wordOf, BitVec.toNat_ofNat]
  omega

/-- A word is made of its own two bytes. -/
@[simp] theorem wordOf_high_low (w : Addr) : wordOf (highByte w) (lowByte w) = w := by
  apply BitVec.eq_of_toNat_eq
  have := w.isLt
  simp only [wordOf_toNat, highByte, lowByte, BitVec.extractLsb'_toNat, Nat.shiftRight_eq_div_pow]
  omega

@[simp] theorem highByte_wordOf (hi lo : Byte) : highByte (wordOf hi lo) = hi := by
  apply BitVec.eq_of_toNat_eq
  have := hi.isLt
  have := lo.isLt
  simp only [highByte, BitVec.extractLsb'_toNat, wordOf_toNat, Nat.shiftRight_eq_div_pow]
  omega

@[simp] theorem lowByte_wordOf (hi lo : Byte) : lowByte (wordOf hi lo) = lo := by
  apply BitVec.eq_of_toNat_eq
  have := hi.isLt
  have := lo.isLt
  simp only [lowByte, BitVec.extractLsb'_toNat, wordOf_toNat, Nat.shiftRight_eq_div_pow]
  omega

/-! ### Operands -/

@[simp] theorem readValue_imm (s : State) (v : Byte) : readValue s (.imm v) = v := rfl
@[simp] theorem readValue_mem (s : State) (m : MemMode) : readValue s (.mem m) = s.memRead (effAddr s m) := rfl
@[simp] theorem shiftValue_acc (s : State) : shiftValue s .acc = s.a := rfl
@[simp] theorem shiftValue_mem (s : State) (m : RmwMode) : shiftValue s (.mem m) = s.memRead (effAddr s m.toMem) := rfl

/-! ### The cycle table -/

@[simp] theorem cycleEntry_nil (op : Byte) (dflt : Nat) : cycleEntry [] op dflt = dflt := rfl

/-- A row takes the first count its table lists, and else the default. -/
theorem cycleEntry_cons (k op : Byte) (n dflt : Nat) (rest : CycleTable) :
    cycleEntry ((k, n) :: rest) op dflt = if k = op then n else cycleEntry rest op dflt := rfl

/-- A row's count is its default or one of the table's. -/
theorem cycleEntry_mem (t : CycleTable) (op : Byte) (dflt : Nat) :
    cycleEntry t op dflt = dflt ∨ ∃ e ∈ t, cycleEntry t op dflt = e.2 := by
  induction t with
  | nil => exact .inl rfl
  | cons e rest ih =>
    obtain ⟨k, n⟩ := e
    rw [cycleEntry_cons]
    split
    · exact .inr ⟨(k, n), by simp, rfl⟩
    · exact ih.imp id fun ⟨e, he, h⟩ => ⟨e, List.mem_cons_of_mem _ he, h⟩

/-- Under the default table the base costs are the default's. -/
theorem baseCycles_default (p : Params) (h : p.cycleTable = []) (i : Instr) : baseCycles p i = defaultCycles i := by
  cases i <;> simp only [baseCycles, tableCycles, h, cycleEntry_nil, defaultCycles] <;> split <;> rfl

/-- A base cost is its default or one of the table's counts. -/
theorem baseCycles_mem (p : Params) (i : Instr) :
    baseCycles p i = defaultCycles i ∨ ∃ e ∈ p.cycleTable, baseCycles p i = e.2 := by
  unfold baseCycles
  split
  · exact .inl rfl
  · split
    · exact cycleEntry_mem _ _ _
    · exact .inl rfl

/-! ### The shared shapes of the meanings: the next state each gives -/

theorem readThen_next (i : Instr) (r : ReadOp) (f : Byte → State → State) (s : State) :
    readThen i r f s = .next ((f (readValue s r) s).advance r.mode.length (readCost s i r)) := rfl

theorem storeByte_next (i : Instr) (m : MemMode) (v : Byte) (s : State) :
    storeByte i m v s = .next ((s.memWrite (effAddr s m) v).advance m.mode.length (baseCycles s.params i)) := rfl

theorem modifyMem_next (i : Instr) (f : Byte → Byte) (m : RmwMode) (s : State) :
    modifyMem i f m s = .next (((s.memWrite (effAddr s m.toMem) (f (s.memRead (effAddr s m.toMem)))).setNZ
      (f (s.memRead (effAddr s m.toMem)))).advance m.toMem.mode.length (baseCycles s.params i)) := rfl

theorem shiftWith_next (i : Instr) (f : Byte → Bool → Shifted) (o : ShiftOp) (s : State) :
    shiftWith i f o s = .next (((s.writeBack (f (shiftValue s o) s.flags.c).result o).setFlags
      (s.flags.afterShift (f (shiftValue s o) s.flags.c))).advance o.mode.length (baseCycles s.params i)) := rfl

theorem implied_next (i : Instr) (s : State) :
    implied i s = .next (s.advance Mode.implied.length (baseCycles s.params i)) := rfl

/-- A branch goes to its target or to the next instruction, and always answers a next state (R173). -/
theorem branchIf_next (i : Instr) (cond : Bool) (b1 : Byte) (s : State) :
    branchIf i cond b1 s = .next (if cond
      then s.finishAt (branchTarget s b1) (baseCycles s.params i + takenExtra (branchTarget s b1) (branchNext s))
      else s.finishAt (branchNext s) (baseCycles s.params i)) := by
  cases cond <;> rfl

end Sys2Proof.Machine
end

