-- ==== Sys2Proof/Laws/PerInstr.lean ====
section
/-! SUPPORT. The family EncodeLength: a well-formed instruction has an opcode byte, and its bytes are as many as its
mode gives (spec/30_encoding.md R80, R81). One lemma per constructor of Instr. -/

namespace Sys2Proof.Laws.EncodeLength

/-- A well-formed instruction has an opcode byte, and its encoding is as long as its mode says (R81). -/
def Statement (i : Instr) : Prop := WellFormed i = true → i.opcode.isSome = true ∧ (encode i).length = i.length

/-- The operand bytes of a memory operand are as many as its mode has. -/
theorem mem_bytes (m : MemMode) : m.bytes.length = m.mode.operandBytes := by cases m <;> rfl

theorem read_bytes (r : ReadOp) : r.bytes.length = r.mode.operandBytes := by
  cases r with
  | imm v => rfl
  | mem m => exact mem_bytes m

theorem shift_bytes (o : ShiftOp) : o.bytes.length = o.mode.operandBytes := by
  cases o with
  | acc => rfl
  | mem m => exact mem_bytes m.toMem

/-- With an opcode byte, the length is one more than the operand bytes. -/
theorem of_opcode {i : Instr} (h : i.opcode.isSome = true) (hb : i.operandBytes.length = i.mode.operandBytes) :
    i.opcode.isSome = true ∧ (encode i).length = i.length := by
  obtain ⟨op, hop⟩ := Option.isSome_iff_exists.mp h
  refine ⟨h, ?_⟩
  simp [encode, hop, hb, Instr.length, Mode.length, Nat.add_comm]

theorem aluOpcode_isSome (r : ReadOp) (imm zp zpX abs absX absY indX indY : Byte) (h : r.aluForm = true) : (r.aluOpcode imm zp zpX abs absX absY indX indY).isSome = true := by
  rcases r with _ | (_ | _ | _ | _ | _ | _ | _ | _) <;> first | rfl | exact absurd h Bool.false_ne_true

theorem bitOpcode_isSome (r : ReadOp) (zp abs : Byte) (h : r.bitForm = true) : (r.bitOpcode zp abs).isSome = true := by
  rcases r with _ | (_ | _ | _ | _ | _ | _ | _ | _) <;> first | rfl | exact absurd h Bool.false_ne_true

theorem indexCompareOpcode_isSome (r : ReadOp) (imm zp abs : Byte) (h : r.indexCompareForm = true) : (r.indexCompareOpcode imm zp abs).isSome = true := by
  rcases r with _ | (_ | _ | _ | _ | _ | _ | _ | _) <;> first | rfl | exact absurd h Bool.false_ne_true

theorem ldxOpcode_isSome (r : ReadOp) (imm zp zpY abs absY : Byte) (h : r.ldxForm = true) : (r.ldxOpcode imm zp zpY abs absY).isSome = true := by
  rcases r with _ | (_ | _ | _ | _ | _ | _ | _ | _) <;> first | rfl | exact absurd h Bool.false_ne_true

theorem ldyOpcode_isSome (r : ReadOp) (imm zp zpX abs absX : Byte) (h : r.ldyForm = true) : (r.ldyOpcode imm zp zpX abs absX).isSome = true := by
  rcases r with _ | (_ | _ | _ | _ | _ | _ | _ | _) <;> first | rfl | exact absurd h Bool.false_ne_true

theorem staOpcode_isSome (m : MemMode) (zp zpX abs absX absY indX indY : Byte) (h : m.staForm = true) : (m.staOpcode zp zpX abs absX absY indX indY).isSome = true := by
  cases m <;> first | rfl | exact absurd h Bool.false_ne_true

theorem stxOpcode_isSome (m : MemMode) (zp zpY abs : Byte) (h : m.stxForm = true) : (m.stxOpcode zp zpY abs).isSome = true := by
  cases m <;> first | rfl | exact absurd h Bool.false_ne_true

theorem styOpcode_isSome (m : MemMode) (zp zpX abs : Byte) (h : m.styForm = true) : (m.styOpcode zp zpX abs).isSome = true := by
  cases m <;> first | rfl | exact absurd h Bool.false_ne_true

theorem adc (r : ReadOp) : Statement (.adc r) := fun h => of_opcode (aluOpcode_isSome r _ _ _ _ _ _ _ _ h) (read_bytes r)
theorem sbc (r : ReadOp) : Statement (.sbc r) := fun h => of_opcode (aluOpcode_isSome r _ _ _ _ _ _ _ _ h) (read_bytes r)
theorem and (r : ReadOp) : Statement (.and r) := fun h => of_opcode (aluOpcode_isSome r _ _ _ _ _ _ _ _ h) (read_bytes r)
theorem ora (r : ReadOp) : Statement (.ora r) := fun h => of_opcode (aluOpcode_isSome r _ _ _ _ _ _ _ _ h) (read_bytes r)
theorem eor (r : ReadOp) : Statement (.eor r) := fun h => of_opcode (aluOpcode_isSome r _ _ _ _ _ _ _ _ h) (read_bytes r)
theorem bit (r : ReadOp) : Statement (.bit r) := fun h => of_opcode (bitOpcode_isSome r _ _ h) (read_bytes r)
theorem lda (r : ReadOp) : Statement (.lda r) := fun h => of_opcode (aluOpcode_isSome r _ _ _ _ _ _ _ _ h) (read_bytes r)
theorem ldx (r : ReadOp) : Statement (.ldx r) := fun h => of_opcode (ldxOpcode_isSome r _ _ _ _ _ h) (read_bytes r)
theorem ldy (r : ReadOp) : Statement (.ldy r) := fun h => of_opcode (ldyOpcode_isSome r _ _ _ _ _ h) (read_bytes r)
theorem sta (m : MemMode) : Statement (.sta m) := fun h => of_opcode (staOpcode_isSome m _ _ _ _ _ _ _ h) (mem_bytes m)
theorem stx (m : MemMode) : Statement (.stx m) := fun h => of_opcode (stxOpcode_isSome m _ _ _ h) (mem_bytes m)
theorem sty (m : MemMode) : Statement (.sty m) := fun h => of_opcode (styOpcode_isSome m _ _ _ h) (mem_bytes m)
theorem asl (o : ShiftOp) : Statement (.asl o) := fun _ => of_opcode rfl (shift_bytes o)
theorem lsr (o : ShiftOp) : Statement (.lsr o) := fun _ => of_opcode rfl (shift_bytes o)
theorem rol (o : ShiftOp) : Statement (.rol o) := fun _ => of_opcode rfl (shift_bytes o)
theorem ror (o : ShiftOp) : Statement (.ror o) := fun _ => of_opcode rfl (shift_bytes o)
theorem inc (m : RmwMode) : Statement (.inc m) := fun _ => of_opcode rfl (mem_bytes m.toMem)
theorem dec (m : RmwMode) : Statement (.dec m) := fun _ => of_opcode rfl (mem_bytes m.toMem)
theorem inx : Statement .inx := fun _ => ⟨rfl, rfl⟩
theorem iny : Statement .iny := fun _ => ⟨rfl, rfl⟩
theorem dex : Statement .dex := fun _ => ⟨rfl, rfl⟩
theorem dey : Statement .dey := fun _ => ⟨rfl, rfl⟩
theorem cmp (r : ReadOp) : Statement (.cmp r) := fun h => of_opcode (aluOpcode_isSome r _ _ _ _ _ _ _ _ h) (read_bytes r)
theorem cpx (r : ReadOp) : Statement (.cpx r) := fun h => of_opcode (indexCompareOpcode_isSome r _ _ _ h) (read_bytes r)
theorem cpy (r : ReadOp) : Statement (.cpy r) := fun h => of_opcode (indexCompareOpcode_isSome r _ _ _ h) (read_bytes r)
theorem bpl (offset : Byte) : Statement (.bpl offset) := fun _ => ⟨rfl, rfl⟩
theorem bmi (offset : Byte) : Statement (.bmi offset) := fun _ => ⟨rfl, rfl⟩
theorem bvc (offset : Byte) : Statement (.bvc offset) := fun _ => ⟨rfl, rfl⟩
theorem bvs (offset : Byte) : Statement (.bvs offset) := fun _ => ⟨rfl, rfl⟩
theorem bcc (offset : Byte) : Statement (.bcc offset) := fun _ => ⟨rfl, rfl⟩
theorem bcs (offset : Byte) : Statement (.bcs offset) := fun _ => ⟨rfl, rfl⟩
theorem bne (offset : Byte) : Statement (.bne offset) := fun _ => ⟨rfl, rfl⟩
theorem beq (offset : Byte) : Statement (.beq offset) := fun _ => ⟨rfl, rfl⟩
theorem jmp (target : Addr) : Statement (.jmp target) := fun _ => ⟨rfl, rfl⟩
theorem jmpInd (ptr : Addr) : Statement (.jmpInd ptr) := fun _ => ⟨rfl, rfl⟩
theorem jsr (target : Addr) : Statement (.jsr target) := fun _ => ⟨rfl, rfl⟩
theorem rts : Statement .rts := fun _ => ⟨rfl, rfl⟩
theorem pha : Statement .pha := fun _ => ⟨rfl, rfl⟩
theorem php : Statement .php := fun _ => ⟨rfl, rfl⟩
theorem plp : Statement .plp := fun _ => ⟨rfl, rfl⟩
theorem pla : Statement .pla := fun _ => ⟨rfl, rfl⟩
theorem tax : Statement .tax := fun _ => ⟨rfl, rfl⟩
theorem tay : Statement .tay := fun _ => ⟨rfl, rfl⟩
theorem txa : Statement .txa := fun _ => ⟨rfl, rfl⟩
theorem tya : Statement .tya := fun _ => ⟨rfl, rfl⟩
theorem tsx : Statement .tsx := fun _ => ⟨rfl, rfl⟩
theorem txs : Statement .txs := fun _ => ⟨rfl, rfl⟩
theorem clc : Statement .clc := fun _ => ⟨rfl, rfl⟩
theorem cld : Statement .cld := fun _ => ⟨rfl, rfl⟩
theorem cli : Statement .cli := fun _ => ⟨rfl, rfl⟩
theorem clv : Statement .clv := fun _ => ⟨rfl, rfl⟩
theorem sec : Statement .sec := fun _ => ⟨rfl, rfl⟩
theorem sed : Statement .sed := fun _ => ⟨rfl, rfl⟩
theorem sei : Statement .sei := fun _ => ⟨rfl, rfl⟩
theorem nop : Statement .nop := fun _ => ⟨rfl, rfl⟩
theorem brk : Statement .brk := fun _ => ⟨rfl, rfl⟩
theorem rti : Statement .rti := fun _ => ⟨rfl, rfl⟩
theorem unrecognized (op : Byte) : Statement (.unrecognized op) := fun h =>
  of_opcode (by simpa [Instr.opcode, WellFormed] using h) rfl

end Sys2Proof.Laws.EncodeLength
end

