-- ==== Sys2Proof/Tests/Slice0.lean ====
section
/-! SUPPORT. Our own tests. Every expected value is the spec's: the opcode map and the Encoding lines of its rules, and
vectors of spec/95_test_vectors.md, named in each test's docstring. At the end, a witness for each obligation with
hypotheses. -/

namespace Sys2Proof.Tests

open Sys2Proof.Machine Sys2Proof.Safety

/-! ## WellFormed: an ill-formed term for each check -/

theorem test_wf_alu : WellFormed (.adc (.mem (.zpY 0x10))) = false ∧ WellFormed (.adc (.mem (.zpX 0x10))) = true := by decide
theorem test_wf_bit : WellFormed (.bit (.imm 0x10)) = false ∧ WellFormed (.bit (.mem (.zp 0x10))) = true := by decide
theorem test_wf_cpx : WellFormed (.cpx (.mem (.zpX 0x10))) = false ∧ WellFormed (.cpx (.imm 0x10)) = true := by decide
theorem test_wf_ldx : WellFormed (.ldx (.mem (.zpX 0x10))) = false ∧ WellFormed (.ldx (.mem (.zpY 0x10))) = true := by decide
theorem test_wf_ldy : WellFormed (.ldy (.mem (.zpY 0x10))) = false ∧ WellFormed (.ldy (.mem (.zpX 0x10))) = true := by decide
theorem test_wf_sta : WellFormed (.sta (.zpY 0x10)) = false ∧ WellFormed (.sta (.indY 0x10)) = true := by decide
theorem test_wf_stx : WellFormed (.stx (.zpX 0x10)) = false ∧ WellFormed (.stx (.zpY 0x10)) = true := by decide
theorem test_wf_sty : WellFormed (.sty (.absX 0x1234)) = false ∧ WellFormed (.sty (.zpX 0x10)) = true := by decide
theorem test_wf_unrecognized : WellFormed (.unrecognized 0xEA) = false ∧ WellFormed (.unrecognized 0xFF) = true := by decide

/-! ## Decoding: words written out bit by bit from spec/30_encoding.md R85 and the rules' Encoding lines -/

/-- What the decoder reads at the start of a list of bytes. -/
def reads (bytes : List Byte) : Option (Instr × List Byte) :=
  match decode bytes with
  | .ok r => some r
  | .error _ => none

theorem test_decode_alu :
    reads [0b01101001, 0x7F] = some (.adc (.imm 0x7F), []) ∧
    reads [0b11111101, 0x34, 0x12] = some (.sbc (.mem (.absX 0x1234)), []) ∧
    reads [0b00100001, 0x7F] = some (.and (.mem (.indX 0x7F)), []) ∧
    reads [0b00010001, 0x7F] = some (.ora (.mem (.indY 0x7F)), []) ∧
    reads [0b01011001, 0x34, 0x12] = some (.eor (.mem (.absY 0x1234)), []) ∧
    reads [0b00101100, 0x34, 0x12] = some (.bit (.mem (.abs 0x1234)), []) := by
  decide

theorem test_decode_load_store :
    reads [0b10110101, 0x7F] = some (.lda (.mem (.zpX 0x7F)), []) ∧
    reads [0b10110110, 0x7F] = some (.ldx (.mem (.zpY 0x7F)), []) ∧
    reads [0b10111100, 0x34, 0x12] = some (.ldy (.mem (.absX 0x1234)), []) ∧
    reads [0b10011001, 0x34, 0x12] = some (.sta (.absY 0x1234), []) ∧
    reads [0b10010110, 0x7F] = some (.stx (.zpY 0x7F), []) ∧
    reads [0b10010100, 0x7F] = some (.sty (.zpX 0x7F), []) := by
  decide

theorem test_decode_shift_incdec :
    reads [0b00001010] = some (.asl .acc, []) ∧
    reads [0b01000110, 0x7F] = some (.lsr (.mem (.zp 0x7F)), []) ∧
    reads [0b00101110, 0x34, 0x12] = some (.rol (.mem (.abs 0x1234)), []) ∧
    reads [0b01111110, 0x34, 0x12] = some (.ror (.mem (.absX 0x1234)), []) ∧
    reads [0b11110110, 0x7F] = some (.inc (.zpX 0x7F), []) ∧
    reads [0b11001110, 0x34, 0x12] = some (.dec (.abs 0x1234), []) ∧
    reads [0b11101000] = some (.inx, []) ∧
    reads [0b11001000] = some (.iny, []) ∧
    reads [0b11001010] = some (.dex, []) ∧
    reads [0b10001000] = some (.dey, []) := by
  decide

theorem test_decode_compare_branch :
    reads [0b11000101, 0x7F] = some (.cmp (.mem (.zp 0x7F)), []) ∧
    reads [0b11100000, 0x7F] = some (.cpx (.imm 0x7F), []) ∧
    reads [0b11001100, 0x34, 0x12] = some (.cpy (.mem (.abs 0x1234)), []) ∧
    reads [0b00010000, 0xF8] = some (.bpl 0xF8, []) ∧
    reads [0b00110000, 0xF8] = some (.bmi 0xF8, []) ∧
    reads [0b01010000, 0xF8] = some (.bvc 0xF8, []) ∧
    reads [0b01110000, 0xF8] = some (.bvs 0xF8, []) ∧
    reads [0b10010000, 0xF8] = some (.bcc 0xF8, []) ∧
    reads [0b10110000, 0xF8] = some (.bcs 0xF8, []) ∧
    reads [0b11010000, 0xF8] = some (.bne 0xF8, []) ∧
    reads [0b11110000, 0xF8] = some (.beq 0xF8, []) := by
  decide

theorem test_decode_jump_stack :
    reads [0b01001100, 0x34, 0x12] = some (.jmp 0x1234, []) ∧
    reads [0b01101100, 0xFF, 0x02] = some (.jmpInd 0x02FF, []) ∧
    reads [0b00100000, 0x34, 0x12] = some (.jsr 0x1234, []) ∧
    reads [0b01100000] = some (.rts, []) ∧
    reads [0b01001000] = some (.pha, []) ∧
    reads [0b00001000] = some (.php, []) ∧
    reads [0b00101000] = some (.plp, []) ∧
    reads [0b01101000] = some (.pla, []) := by
  decide

theorem test_decode_transfer :
    reads [0b10101010] = some (.tax, []) ∧
    reads [0b10101000] = some (.tay, []) ∧
    reads [0b10001010] = some (.txa, []) ∧
    reads [0b10011000] = some (.tya, []) ∧
    reads [0b10111010] = some (.tsx, []) ∧
    reads [0b10011010] = some (.txs, []) := by
  decide

theorem test_decode_flag_nop :
    reads [0b00011000] = some (.clc, []) ∧
    reads [0b11011000] = some (.cld, []) ∧
    reads [0b01011000] = some (.cli, []) ∧
    reads [0b10111000] = some (.clv, []) ∧
    reads [0b00111000] = some (.sec, []) ∧
    reads [0b11111000] = some (.sed, []) ∧
    reads [0b01111000] = some (.sei, []) ∧
    reads [0b11101010] = some (.nop, []) := by
  decide

theorem test_decode_system :
    reads [0b00000000] = some (.brk, []) ∧
    reads [0b01000000] = some (.rti, []) := by
  decide

/-- R87: a byte with no descriptor takes no operand byte. -/
theorem test_decode_unrecognized : reads [0b00000010, 0x11, 0x22] = some (.unrecognized 0x02, [0x11, 0x22]) := by decide

/-- R89: too few bytes are refused by name. -/
theorem test_decode_truncated :
    decode [0xBD, 0x00] = .error (.truncated 0xBD) ∧ decode [] = .error .noBytes := ⟨rfl, rfl⟩

/-- The table's bit numbering: `JMP $1234` is 0x12344C with all its bits, and 0x4C with operand bits of 0. -/
theorem test_table_word :
    decodeTableWord 24 0x12344C = some (.jmp 0x1234) ∧ decodeTableWord 8 0x4C = some (.jmp 0x0000) ∧
    decodeTableWord 8 0xFF02 = some (.unrecognized 0x02) := by decide

/-- A row of the opcode map: its 16 values of `f`, low digits 0 to F. -/
def mapRow (f : Instr → Nat) (hi : Nat) : List Nat :=
  (List.range 16).map (fun lo => f (instrOf (BitVec.ofNat 8 (16 * hi + lo)) 0 0))

/-- spec/opcode_table.json: "length". -/
theorem test_lengths :
    mapRow Instr.length 0x0 = [1, 2, 1, 1, 1, 2, 2, 1, 1, 2, 1, 1, 1, 3, 3, 1] ∧
    mapRow Instr.length 0x1 = [2, 2, 1, 1, 1, 2, 2, 1, 1, 3, 1, 1, 1, 3, 3, 1] ∧
    mapRow Instr.length 0x2 = [3, 2, 1, 1, 2, 2, 2, 1, 1, 2, 1, 1, 3, 3, 3, 1] ∧
    mapRow Instr.length 0x3 = [2, 2, 1, 1, 1, 2, 2, 1, 1, 3, 1, 1, 1, 3, 3, 1] ∧
    mapRow Instr.length 0x4 = [1, 2, 1, 1, 1, 2, 2, 1, 1, 2, 1, 1, 3, 3, 3, 1] ∧
    mapRow Instr.length 0x5 = [2, 2, 1, 1, 1, 2, 2, 1, 1, 3, 1, 1, 1, 3, 3, 1] ∧
    mapRow Instr.length 0x6 = [1, 2, 1, 1, 1, 2, 2, 1, 1, 2, 1, 1, 3, 3, 3, 1] ∧
    mapRow Instr.length 0x7 = [2, 2, 1, 1, 1, 2, 2, 1, 1, 3, 1, 1, 1, 3, 3, 1] ∧
    mapRow Instr.length 0x8 = [1, 2, 1, 1, 2, 2, 2, 1, 1, 1, 1, 1, 3, 3, 3, 1] ∧
    mapRow Instr.length 0x9 = [2, 2, 1, 1, 2, 2, 2, 1, 1, 3, 1, 1, 1, 3, 1, 1] ∧
    mapRow Instr.length 0xA = [2, 2, 2, 1, 2, 2, 2, 1, 1, 2, 1, 1, 3, 3, 3, 1] ∧
    mapRow Instr.length 0xB = [2, 2, 1, 1, 2, 2, 2, 1, 1, 3, 1, 1, 3, 3, 3, 1] ∧
    mapRow Instr.length 0xC = [2, 2, 1, 1, 2, 2, 2, 1, 1, 2, 1, 1, 3, 3, 3, 1] ∧
    mapRow Instr.length 0xD = [2, 2, 1, 1, 1, 2, 2, 1, 1, 3, 1, 1, 1, 3, 3, 1] ∧
    mapRow Instr.length 0xE = [2, 2, 1, 1, 2, 2, 2, 1, 1, 2, 1, 1, 3, 3, 3, 1] ∧
    mapRow Instr.length 0xF = [2, 2, 1, 1, 1, 2, 2, 1, 1, 3, 1, 1, 1, 3, 3, 1] := by
  decide

/-- spec/opcode_table.json: "cycles", the base cost. -/
theorem test_cycles :
    mapRow (baseCycles defaultParams) 0x0 = [7, 6, 2, 2, 2, 3, 5, 2, 3, 2, 2, 2, 2, 4, 6, 2] ∧
    mapRow (baseCycles defaultParams) 0x1 = [2, 5, 2, 2, 2, 4, 6, 2, 2, 4, 2, 2, 2, 4, 7, 2] ∧
    mapRow (baseCycles defaultParams) 0x2 = [6, 6, 2, 2, 3, 3, 5, 2, 4, 2, 2, 2, 4, 4, 6, 2] ∧
    mapRow (baseCycles defaultParams) 0x3 = [2, 5, 2, 2, 2, 4, 6, 2, 2, 4, 2, 2, 2, 4, 7, 2] ∧
    mapRow (baseCycles defaultParams) 0x4 = [6, 6, 2, 2, 2, 3, 5, 2, 3, 2, 2, 2, 3, 4, 6, 2] ∧
    mapRow (baseCycles defaultParams) 0x5 = [2, 5, 2, 2, 2, 4, 6, 2, 2, 4, 2, 2, 2, 4, 7, 2] ∧
    mapRow (baseCycles defaultParams) 0x6 = [6, 6, 2, 2, 2, 3, 5, 2, 4, 2, 2, 2, 5, 4, 6, 2] ∧
    mapRow (baseCycles defaultParams) 0x7 = [2, 5, 2, 2, 2, 4, 6, 2, 2, 4, 2, 2, 2, 4, 7, 2] ∧
    mapRow (baseCycles defaultParams) 0x8 = [2, 6, 2, 2, 3, 3, 3, 2, 2, 2, 2, 2, 4, 4, 4, 2] ∧
    mapRow (baseCycles defaultParams) 0x9 = [2, 6, 2, 2, 4, 4, 4, 2, 2, 5, 2, 2, 2, 5, 2, 2] ∧
    mapRow (baseCycles defaultParams) 0xA = [2, 6, 2, 2, 3, 3, 3, 2, 2, 2, 2, 2, 4, 4, 4, 2] ∧
    mapRow (baseCycles defaultParams) 0xB = [2, 5, 2, 2, 4, 4, 4, 2, 2, 4, 2, 2, 4, 4, 4, 2] ∧
    mapRow (baseCycles defaultParams) 0xC = [2, 6, 2, 2, 3, 3, 5, 2, 2, 2, 2, 2, 4, 4, 6, 2] ∧
    mapRow (baseCycles defaultParams) 0xD = [2, 5, 2, 2, 2, 4, 6, 2, 2, 4, 2, 2, 2, 4, 7, 2] ∧
    mapRow (baseCycles defaultParams) 0xE = [2, 6, 2, 2, 3, 3, 5, 2, 2, 2, 2, 2, 4, 4, 6, 2] ∧
    mapRow (baseCycles defaultParams) 0xF = [2, 5, 2, 2, 2, 4, 6, 2, 2, 4, 2, 2, 2, 4, 7, 2] := by
  decide

/-- spec/opcode_table.json: "page_penalty". -/
theorem test_page_penalty :
    mapRow (fun i => (pagePenalty i).toNat) 0x0 = [0, 0, 0, 0, 0, 0, 0, 0, 0, 0, 0, 0, 0, 0, 0, 0] ∧
    mapRow (fun i => (pagePenalty i).toNat) 0x1 = [0, 1, 0, 0, 0, 0, 0, 0, 0, 1, 0, 0, 0, 1, 0, 0] ∧
    mapRow (fun i => (pagePenalty i).toNat) 0x2 = [0, 0, 0, 0, 0, 0, 0, 0, 0, 0, 0, 0, 0, 0, 0, 0] ∧
    mapRow (fun i => (pagePenalty i).toNat) 0x3 = [0, 1, 0, 0, 0, 0, 0, 0, 0, 1, 0, 0, 0, 1, 0, 0] ∧
    mapRow (fun i => (pagePenalty i).toNat) 0x4 = [0, 0, 0, 0, 0, 0, 0, 0, 0, 0, 0, 0, 0, 0, 0, 0] ∧
    mapRow (fun i => (pagePenalty i).toNat) 0x5 = [0, 1, 0, 0, 0, 0, 0, 0, 0, 1, 0, 0, 0, 1, 0, 0] ∧
    mapRow (fun i => (pagePenalty i).toNat) 0x6 = [0, 0, 0, 0, 0, 0, 0, 0, 0, 0, 0, 0, 0, 0, 0, 0] ∧
    mapRow (fun i => (pagePenalty i).toNat) 0x7 = [0, 1, 0, 0, 0, 0, 0, 0, 0, 1, 0, 0, 0, 1, 0, 0] ∧
    mapRow (fun i => (pagePenalty i).toNat) 0x8 = [0, 0, 0, 0, 0, 0, 0, 0, 0, 0, 0, 0, 0, 0, 0, 0] ∧
    mapRow (fun i => (pagePenalty i).toNat) 0x9 = [0, 0, 0, 0, 0, 0, 0, 0, 0, 0, 0, 0, 0, 0, 0, 0] ∧
    mapRow (fun i => (pagePenalty i).toNat) 0xA = [0, 0, 0, 0, 0, 0, 0, 0, 0, 0, 0, 0, 0, 0, 0, 0] ∧
    mapRow (fun i => (pagePenalty i).toNat) 0xB = [0, 1, 0, 0, 0, 0, 0, 0, 0, 1, 0, 0, 1, 1, 1, 0] ∧
    mapRow (fun i => (pagePenalty i).toNat) 0xC = [0, 0, 0, 0, 0, 0, 0, 0, 0, 0, 0, 0, 0, 0, 0, 0] ∧
    mapRow (fun i => (pagePenalty i).toNat) 0xD = [0, 1, 0, 0, 0, 0, 0, 0, 0, 1, 0, 0, 0, 1, 0, 0] ∧
    mapRow (fun i => (pagePenalty i).toNat) 0xE = [0, 0, 0, 0, 0, 0, 0, 0, 0, 0, 0, 0, 0, 0, 0, 0] ∧
    mapRow (fun i => (pagePenalty i).toNat) 0xF = [0, 1, 0, 0, 0, 0, 0, 0, 0, 1, 0, 0, 0, 1, 0, 0] := by
  decide

/-! ## One step -/

/-- The flags of the vectors' start state: I alone (spec/95_test_vectors.md, Conventions). -/
def onlyI : Flags := { n := false, v := false, d := false, i := true, z := false, c := false }

/-- The vectors' start state, with the listed memory bytes and the instruction at `pc`. -/
def start (pc : Addr) (code : List Byte) (cells : List (Addr × Byte)) : State :=
  { loadImage (code.mapIdx (fun k b => (pc.toNat + k, b)))
      (loadImage (cells.map (fun c => (c.1.toNat, c.2))) State.reset) with pc := pc }

/-- The step answers a next state in which `p` holds. -/
def gives (s : State) (p : State → Bool) : Bool :=
  match step s with
  | .next t => p t
  | .fault _ => false
  | .refused _ => false

/-! ### Arithmetic and logic (vectors V1) -/

/-- V-ALU-4: `ADC #$80`. -/
theorem test_adc_carry_out_of_zero :
    gives { start 0x0600 [0x69, 0x80] [] with a := 0x80 } (fun t =>
      t.a == 0x00 && t.flags == { onlyI with v := true, z := true, c := true } && t.pc == 0x0602 &&
      t.cycles == 2) = true := by decide

/-- V-ALU-25: `ADC $10`. -/
theorem test_adc_zeropage :
    gives { start 0x0600 [0x65, 0x10] [(0x0010, 0x22)] with a := 0x11, flags := { onlyI with c := true } } (fun t =>
      t.a == 0x34 && t.flags == onlyI && t.pc == 0x0602 && t.cycles == 3) = true := by decide

/-- V-ALU-9: `SBC #$B0`. -/
theorem test_sbc_borrow_and_overflow :
    gives { start 0x0600 [0xE9, 0xB0] [] with a := 0x50, flags := { onlyI with c := true } } (fun t =>
      t.a == 0xA0 && t.flags == { onlyI with n := true, v := true } && t.pc == 0x0602 &&
      t.cycles == 2) = true := by decide

/-- V-ALU-26: `SBC ($20),Y`. -/
theorem test_sbc_indirect_indexed_crosses :
    gives { start 0x0600 [0xF1, 0x20] [(0x0020, 0xF0), (0x0021, 0x12), (0x1300, 0x01)]
      with a := 0x05, y := 0x10, flags := { onlyI with c := true } } (fun t =>
      t.a == 0x04 && t.flags == { onlyI with c := true } && t.pc == 0x0602 && t.cycles == 6) = true := by decide

/-- V-ALU-17: `AND #$80`. -/
theorem test_and_keeps_c_and_v :
    gives { start 0x0600 [0x29, 0x80] [] with a := 0xFF, flags := { onlyI with v := true, c := true } } (fun t =>
      t.a == 0x80 && t.flags == { onlyI with n := true, v := true, c := true } && t.pc == 0x0602 &&
      t.cycles == 2) = true := by decide

/-- V-ALU-19: `ORA #$80`. -/
theorem test_ora_negative :
    gives { start 0x0600 [0x09, 0x80] [] with a := 0x01 } (fun t =>
      t.a == 0x81 && t.flags == { onlyI with n := true } && t.pc == 0x0602 && t.cycles == 2) = true := by decide

/-- V-ALU-20: `EOR #$FF`. -/
theorem test_eor_zero :
    gives { start 0x0600 [0x49, 0xFF] [] with a := 0xFF } (fun t =>
      t.a == 0x00 && t.flags == { onlyI with z := true } && t.pc == 0x0602 && t.cycles == 2) = true := by decide

/-- V-ALU-23: `BIT $10`. -/
theorem test_bit_clears_n_and_v :
    gives { start 0x0600 [0x24, 0x10] [(0x0010, 0x3F)]
      with a := 0xC0, flags := { onlyI with n := true, v := true } } (fun t =>
      t.flags == { onlyI with z := true } && t.pc == 0x0602 && t.cycles == 3) = true := by decide

/-- V-ALU-24: `BIT $1234`. -/
theorem test_bit_absolute :
    gives { start 0x0600 [0x2C, 0x34, 0x12] [(0x1234, 0xFF)] with a := 0x01 } (fun t =>
      t.flags == { onlyI with n := true, v := true } && t.pc == 0x0603 && t.cycles == 4) = true := by decide

/-! ### Addressing, loads and stores (vectors V2 and V6) -/

/-- V-AM-7: `LDA ($FE,X)`. -/
theorem test_lda_indexed_indirect_pointer_wraps :
    gives { start 0x0600 [0xA1, 0xFE] [(0x0000, 0x12), (0x00FF, 0x34), (0x0100, 0x56), (0x1234, 0xAB)]
      with x := 0x01 } (fun t =>
      t.a == 0xAB && t.flags == { onlyI with n := true } && t.pc == 0x0602 && t.cycles == 6) = true := by decide

/-- V-AM-8: `LDA ($FF),Y`. -/
theorem test_lda_indirect_indexed_pointer_wraps :
    gives { start 0x0600 [0xB1, 0xFF] [(0x0000, 0x03), (0x00FF, 0x00), (0x0100, 0x04), (0x0305, 0x09)]
      with y := 0x05 } (fun t =>
      t.a == 0x09 && t.flags == onlyI && t.pc == 0x0602 && t.cycles == 5) = true := by decide

/-- V-AM-2: `LDX $FF,Y`. -/
theorem test_ldx_zeropage_y_wraps :
    gives { start 0x0600 [0xB6, 0xFF] [(0x0001, 0x33), (0x0101, 0x00)] with y := 0x02 } (fun t =>
      t.x == 0x33 && t.flags == onlyI && t.pc == 0x0602 && t.cycles == 4) = true := by decide

/-- V-LS-4: `LDX $12F0,Y`. -/
theorem test_ldx_absolute_y_crosses :
    gives { start 0x0600 [0xBE, 0xF0, 0x12] [(0x1300, 0xFE)] with y := 0x10 } (fun t =>
      t.x == 0xFE && t.flags == { onlyI with n := true } && t.pc == 0x0603 && t.cycles == 5) = true := by decide

/-- V-LS-6: `LDY $12FF,X`. -/
theorem test_ldy_absolute_x_crosses :
    gives { start 0x0600 [0xBC, 0xFF, 0x12] [(0x1300, 0x7F)] with x := 0x01 } (fun t =>
      t.y == 0x7F && t.flags == onlyI && t.pc == 0x0603 && t.cycles == 5) = true := by decide

/-- V-LS-7: `LDY $80,X`. -/
theorem test_ldy_zeropage_x_wraps :
    gives { start 0x0600 [0xB4, 0x80] [(0x007F, 0x90)] with x := 0xFF } (fun t =>
      t.y == 0x90 && t.flags == { onlyI with n := true } && t.pc == 0x0602 && t.cycles == 4) = true := by decide

/-- V-LS-11: `STA $FF,X`. -/
theorem test_sta_zeropage_x_wraps :
    gives { start 0x0600 [0x95, 0xFF] [] with a := 0x42, x := 0x01 } (fun t =>
      t.flags == onlyI && t.pc == 0x0602 && t.memRead 0x0000 == 0x42 && t.memRead 0x0100 == 0x00 &&
      t.cycles == 4) = true := by decide

/-- V-LS-13: `STA ($FF,X)`. -/
theorem test_sta_indexed_indirect :
    gives { start 0x0600 [0x81, 0xFF] [(0x0000, 0x00), (0x0001, 0x20)] with a := 0x5A, x := 0x01 } (fun t =>
      t.flags == onlyI && t.pc == 0x0602 && t.memRead 0x2000 == 0x5A && t.cycles == 6) = true := by decide

/-- V-LS-15: `STX $FF,Y`. -/
theorem test_stx_zeropage_y_wraps :
    gives { start 0x0600 [0x96, 0xFF] [] with x := 0x07, y := 0x02 } (fun t =>
      t.flags == onlyI && t.pc == 0x0602 && t.memRead 0x0001 == 0x07 && t.cycles == 4) = true := by decide

/-- V-LS-17: `STY $10,X`. -/
theorem test_sty_zeropage_x_wraps :
    gives { start 0x0600 [0x94, 0x10] [] with x := 0xFF, y := 0x99 } (fun t =>
      t.flags == onlyI && t.pc == 0x0602 && t.memRead 0x000F == 0x99 && t.cycles == 4) = true := by decide

/-! ### Shifts, increments and decrements (vectors V3) -/

/-- V-SH-2: `ASL A`. -/
theorem test_asl_ignores_carry_in :
    gives { start 0x0600 [0x0A] [] with a := 0x40, flags := { onlyI with c := true } } (fun t =>
      t.a == 0x80 && t.flags == { onlyI with n := true } && t.pc == 0x0601 && t.cycles == 2) = true := by decide

/-- V-SH-9: `ASL $F0,X`. -/
theorem test_asl_memory :
    gives { start 0x0600 [0x16, 0xF0] [(0x000F, 0xC1)] with x := 0x1F } (fun t =>
      t.flags == { onlyI with n := true, c := true } && t.pc == 0x0602 && t.memRead 0x000F == 0x82 &&
      t.cycles == 6) = true := by decide

/-- V-SH-4: `LSR A`. -/
theorem test_lsr_accumulator :
    gives { start 0x0600 [0x4A] [] with a := 0x80, flags := { onlyI with n := true } } (fun t =>
      t.a == 0x40 && t.flags == onlyI && t.pc == 0x0601 && t.cycles == 2) = true := by decide

/-- V-SH-11: `LSR $1200,X`. -/
theorem test_lsr_memory :
    gives { start 0x0600 [0x5E, 0x00, 0x12] [(0x1201, 0xFF)] with x := 0x01 } (fun t =>
      t.flags == { onlyI with c := true } && t.pc == 0x0603 && t.memRead 0x1201 == 0x7F &&
      t.cycles == 7) = true := by decide

/-- V-SH-5: `ROL A`. -/
theorem test_rol_carry_in :
    gives { start 0x0600 [0x2A] [] with flags := { onlyI with c := true } } (fun t =>
      t.a == 0x01 && t.flags == onlyI && t.pc == 0x0601 && t.cycles == 2) = true := by decide

/-- V-SH-6: `ROL A`. -/
theorem test_rol_carry_out :
    gives { start 0x0600 [0x2A] [] with a := 0x80 } (fun t =>
      t.a == 0x00 && t.flags == { onlyI with z := true, c := true } && t.pc == 0x0601 &&
      t.cycles == 2) = true := by decide

/-- V-SH-8: `ROR A`. -/
theorem test_ror_carry_out :
    gives { start 0x0600 [0x6A] [] with a := 0x01 } (fun t =>
      t.a == 0x00 && t.flags == { onlyI with z := true, c := true } && t.pc == 0x0601 &&
      t.cycles == 2) = true := by decide

/-- V-SH-10: `ROR $1234`. -/
theorem test_ror_carry_in :
    gives { start 0x0600 [0x6E, 0x34, 0x12] [(0x1234, 0x02)] with flags := { onlyI with c := true } } (fun t =>
      t.flags == { onlyI with n := true } && t.pc == 0x0603 && t.memRead 0x1234 == 0x81 &&
      t.cycles == 6) = true := by decide

/-- V-AM-14: `INC $00FF,X`. -/
theorem test_inc_absolute_x_fixed_cost :
    gives { start 0x0600 [0xFE, 0xFF, 0x00] [(0x0100, 0x7F)] with x := 0x01 } (fun t =>
      t.flags == { onlyI with n := true } && t.pc == 0x0603 && t.memRead 0x0100 == 0x80 &&
      t.cycles == 7) = true := by decide

/-- V-ID-5: `INC $10`. -/
theorem test_inc_keeps_c_and_v :
    gives { start 0x0600 [0xE6, 0x10] [(0x0010, 0x7F)] with flags := { onlyI with v := true, c := true } } (fun t =>
      t.flags == { onlyI with n := true, v := true, c := true } && t.pc == 0x0602 && t.memRead 0x0010 == 0x80 &&
      t.cycles == 5) = true := by decide

/-- V-ID-8: `DEC $12FF,X`. -/
theorem test_dec_wraps :
    gives { start 0x0600 [0xDE, 0xFF, 0x12] [(0x1300, 0x00)] with x := 0x01 } (fun t =>
      t.flags == { onlyI with n := true } && t.pc == 0x0603 && t.memRead 0x1300 == 0xFF &&
      t.cycles == 7) = true := by decide

/-- V-ID-1: `INX`. -/
theorem test_inx_wraps :
    gives { start 0x0600 [0xE8] [] with x := 0xFF } (fun t =>
      t.x == 0x00 && t.flags == { onlyI with z := true } && t.pc == 0x0601 && t.cycles == 2) = true := by decide

/-- V-ID-2: `INY`. -/
theorem test_iny_negative :
    gives { start 0x0600 [0xC8] [] with y := 0x7F } (fun t =>
      t.y == 0x80 && t.flags == { onlyI with n := true } && t.pc == 0x0601 && t.cycles == 2) = true := by decide

/-- V-ID-3: `DEX`. -/
theorem test_dex_wraps :
    gives (start 0x0600 [0xCA] []) (fun t =>
      t.x == 0xFF && t.flags == { onlyI with n := true } && t.pc == 0x0601 && t.cycles == 2) = true := by decide

/-- V-ID-4: `DEY`. -/
theorem test_dey_positive :
    gives { start 0x0600 [0x88] [] with y := 0x80 } (fun t =>
      t.y == 0x7F && t.flags == onlyI && t.pc == 0x0601 && t.cycles == 2) = true := by decide

/-! ### Compares and branches (vectors V4) -/

/-- V-CP-3: `CMP #$01`. -/
theorem test_cmp_unsigned_greater :
    gives { start 0x0600 [0xC9, 0x01] [] with a := 0x80 } (fun t =>
      t.flags == { onlyI with c := true } && t.pc == 0x0602 && t.cycles == 2) = true := by decide

/-- V-CP-4: `CMP #$01`. -/
theorem test_cmp_keeps_v :
    gives { start 0x0600 [0xC9, 0x01] [] with flags := { onlyI with v := true } } (fun t =>
      t.flags == { onlyI with n := true, v := true } && t.pc == 0x0602 && t.cycles == 2) = true := by decide

/-- V-CP-6: `CPX $10`. -/
theorem test_cpx_less :
    gives { start 0x0600 [0xE4, 0x10] [(0x0010, 0x80)] with x := 0x7F } (fun t =>
      t.flags == { onlyI with n := true } && t.pc == 0x0602 && t.cycles == 3) = true := by decide

/-- V-CP-8: `CPY $1234`. -/
theorem test_cpy_less :
    gives { start 0x0600 [0xCC, 0x34, 0x12] [(0x1234, 0x90)] with y := 0x10 } (fun t =>
      t.flags == { onlyI with n := true } && t.pc == 0x0603 && t.cycles == 4) = true := by decide

/-- V-BR-1: `BPL +4`. -/
theorem test_bpl_taken :
    gives (start 0x0600 [0x10, 0x04] []) (fun t =>
      t.flags == onlyI && t.pc == 0x0606 && t.cycles == 3) = true := by decide

/-- V-BR-2: `BPL +4`. -/
theorem test_bpl_not_taken :
    gives { start 0x0600 [0x10, 0x04] [] with flags := { onlyI with n := true } } (fun t =>
      t.flags == { onlyI with n := true } && t.pc == 0x0602 && t.cycles == 2) = true := by decide

/-- V-BR-3: `BMI -16`. -/
theorem test_bmi_backward :
    gives { start 0x0610 [0x30, 0xF0] [] with flags := { onlyI with n := true } } (fun t =>
      t.flags == { onlyI with n := true } && t.pc == 0x0602 && t.cycles == 3) = true := by decide

/-- V-BR-4: `BVC +16`. -/
theorem test_bvc :
    gives (start 0x0600 [0x50, 0x10] []) (fun t =>
      t.flags == onlyI && t.pc == 0x0612 && t.cycles == 3) = true := by decide

/-- V-BR-5: `BVS +32`. -/
theorem test_bvs_other_page :
    gives { start 0x06F0 [0x70, 0x20] [] with flags := { onlyI with v := true } } (fun t =>
      t.flags == { onlyI with v := true } && t.pc == 0x0712 && t.cycles == 4) = true := by decide

/-- V-BR-7: `BCC -128`. -/
theorem test_bcc_least_offset :
    gives (start 0x0600 [0x90, 0x80] []) (fun t =>
      t.flags == onlyI && t.pc == 0x0582 && t.cycles == 4) = true := by decide

/-- V-BR-8: `BCS -1`. -/
theorem test_bcs_pc_wraps :
    gives { start 0xFFFE [0xB0, 0xFF] [] with flags := { onlyI with c := true } } (fun t =>
      t.flags == { onlyI with c := true } && t.pc == 0xFFFF && t.cycles == 4) = true := by decide

/-- V-BR-9: `BNE -4`. -/
theorem test_bne_other_page :
    gives (start 0x06FE [0xD0, 0xFC] []) (fun t =>
      t.flags == onlyI && t.pc == 0x06FC && t.cycles == 4) = true := by decide

/-- V-BR-13: `BEQ +0`. -/
theorem test_beq_page_of_next :
    gives { start 0x80FE [0xF0, 0x00] [] with flags := { onlyI with z := true } } (fun t =>
      t.flags == { onlyI with z := true } && t.pc == 0x8100 && t.cycles == 3) = true := by decide

/-! ### Jumps, subroutines and stack (vectors V5) -/

/-- V-JS-1: `JMP $1234`. -/
theorem test_jmp :
    gives (start 0x0600 [0x4C, 0x34, 0x12] []) (fun t =>
      t.flags == onlyI && t.pc == 0x1234 && t.cycles == 3) = true := by decide

/-- V-JS-2: `JMP ($02FF)`. -/
theorem test_jmp_indirect_page_wrap :
    gives (start 0x0600 [0x6C, 0xFF, 0x02] [(0x0200, 0x40), (0x02FF, 0x00), (0x0300, 0x50)]) (fun t =>
      t.flags == onlyI && t.pc == 0x4000 && t.cycles == 5) = true := by decide

/-- V-JS-3: `JMP ($02FF)`. -/
theorem test_jmp_indirect_no_page_wrap :
    gives { start 0x0600 [0x6C, 0xFF, 0x02] [(0x0200, 0x40), (0x02FF, 0x00), (0x0300, 0x50)]
      with params := ⟨.nextInstruction, false, []⟩ } (fun t =>
      t.flags == onlyI && t.pc == 0x5000 && t.cycles == 5) = true := by decide

/-- V-JS-6: `JSR $0700`. -/
theorem test_jsr_nmos :
    gives { start 0x0600 [0x20, 0x00, 0x07] [] with params := ⟨.nmosLastByte, true, []⟩ } (fun t =>
      t.sp == 0xFB && t.flags == onlyI && t.pc == 0x0700 && t.memRead 0x01FD == 0x06 && t.memRead 0x01FC == 0x02 &&
      t.cycles == 6) = true := by decide

/-- V-JS-7: `JSR $0700`. -/
theorem test_jsr_stack_wraps :
    gives { start 0x0600 [0x20, 0x00, 0x07] [] with sp := 0x00 } (fun t =>
      t.sp == 0xFE && t.flags == onlyI && t.pc == 0x0700 && t.memRead 0x0100 == 0x06 && t.memRead 0x01FF == 0x03 &&
      t.cycles == 6) = true := by decide

/-- V-JS-9: `RTS`. -/
theorem test_rts_nmos :
    gives { start 0x0600 [0x60] [(0x01FC, 0x02), (0x01FD, 0x06)]
      with sp := 0xFB, params := ⟨.nmosLastByte, true, []⟩ } (fun t =>
      t.sp == 0xFD && t.flags == onlyI && t.pc == 0x0603 && t.cycles == 6) = true := by decide

/-- V-JS-10: `RTS`. -/
theorem test_rts_stack_wraps :
    gives { start 0x0600 [0x60] [(0x0100, 0x12), (0x01FF, 0x34)] with sp := 0xFE } (fun t =>
      t.sp == 0x00 && t.flags == onlyI && t.pc == 0x1234 && t.cycles == 6) = true := by decide

/-- V-JS-12: `PHA`. -/
theorem test_pha_stack_wraps :
    gives { start 0x0600 [0x48] [] with a := 0x42, sp := 0x00 } (fun t =>
      t.sp == 0xFF && t.flags == onlyI && t.pc == 0x0601 && t.memRead 0x0100 == 0x42 &&
      t.cycles == 3) = true := by decide

/-- V-JS-13: `PHP`. -/
theorem test_php_some_flags :
    gives { start 0x0600 [0x08] [] with flags := { onlyI with n := true, i := false, c := true } } (fun t =>
      t.sp == 0xFC && t.flags == { onlyI with n := true, i := false, c := true } && t.pc == 0x0601 &&
      t.memRead 0x01FD == 0xB1 && t.cycles == 3) = true := by decide

/-- V-JS-15: `PHP`. -/
theorem test_php_all_flags :
    gives { start 0x0600 [0x08] []
      with flags := { onlyI with n := true, v := true, d := true, z := true, c := true } } (fun t =>
      t.sp == 0xFC && t.flags == { onlyI with n := true, v := true, d := true, z := true, c := true } &&
      t.pc == 0x0601 && t.memRead 0x01FD == 0xFF && t.cycles == 3) = true := by decide

/-- V-JS-16: `PLP`. -/
theorem test_plp_ignores_bits_5_4 :
    gives { start 0x0600 [0x28] [(0x01FD, 0xC3)] with sp := 0xFC } (fun t =>
      t.sp == 0xFD && t.flags == { onlyI with n := true, v := true, i := false, z := true, c := true } &&
      t.pc == 0x0601 && t.cycles == 4) = true := by decide

/-- V-JS-17: `PLP`. -/
theorem test_plp_clears :
    gives { start 0x0600 [0x28] [(0x01FD, 0x30)]
      with sp := 0xFC, flags := { onlyI with n := true, v := true, d := true, z := true, c := true } } (fun t =>
      t.sp == 0xFD && t.flags == { onlyI with i := false } && t.pc == 0x0601 && t.cycles == 4) = true := by decide

/-- V-JS-19: `PLA`. -/
theorem test_pla_stack_wraps :
    gives { start 0x0600 [0x68] [(0x0100, 0x00)] with a := 0x11, sp := 0xFF } (fun t =>
      t.a == 0x00 && t.sp == 0x00 && t.flags == { onlyI with z := true } && t.pc == 0x0601 &&
      t.cycles == 4) = true := by decide

/-! ### Transfers, flag operations, no operation (vectors V7) -/

/-- V-TF-1: `TAX`. -/
theorem test_tax :
    gives { start 0x0600 [0xAA] [] with a := 0x7F } (fun t =>
      t.x == 0x7F && t.flags == onlyI && t.pc == 0x0601 && t.cycles == 2) = true := by decide

/-- V-TF-2: `TAY`. -/
theorem test_tay_negative :
    gives { start 0x0600 [0xA8] [] with a := 0xFF } (fun t =>
      t.y == 0xFF && t.flags == { onlyI with n := true } && t.pc == 0x0601 && t.cycles == 2) = true := by decide

/-- V-TF-3: `TXA`. -/
theorem test_txa :
    gives { start 0x0600 [0x8A] [] with a := 0x99, x := 0x10, flags := { onlyI with n := true } } (fun t =>
      t.a == 0x10 && t.flags == onlyI && t.pc == 0x0601 && t.cycles == 2) = true := by decide

/-- V-TF-4: `TYA`. -/
theorem test_tya_zero :
    gives { start 0x0600 [0x98] [] with a := 0x01 } (fun t =>
      t.a == 0x00 && t.flags == { onlyI with z := true } && t.pc == 0x0601 && t.cycles == 2) = true := by decide

/-- V-TF-5: `TSX`. -/
theorem test_tsx_zero :
    gives { start 0x0600 [0xBA] [] with x := 0x05, sp := 0x00 } (fun t =>
      t.x == 0x00 && t.flags == { onlyI with z := true } && t.pc == 0x0601 && t.cycles == 2) = true := by decide

/-- V-TF-7: `TXS`. -/
theorem test_txs_no_negative :
    gives { start 0x0600 [0x9A] [] with x := 0xFF, flags := { onlyI with z := true } } (fun t =>
      t.sp == 0xFF && t.flags == { onlyI with z := true } && t.pc == 0x0601 && t.cycles == 2) = true := by decide

/-- V-TF-8: `TXS`. -/
theorem test_txs_no_zero :
    gives { start 0x0600 [0x9A] [] with flags := { onlyI with n := true } } (fun t =>
      t.sp == 0x00 && t.flags == { onlyI with n := true } && t.pc == 0x0601 && t.cycles == 2) = true := by decide

/-- V-TF-9: `CLC`. -/
theorem test_clc :
    gives { start 0x0600 [0x18] [] with flags := { onlyI with c := true } } (fun t =>
      t.flags == onlyI && t.pc == 0x0601 && t.cycles == 2) = true := by decide

/-- V-TF-10: `CLD`. -/
theorem test_cld :
    gives { start 0x0600 [0xD8] [] with flags := { onlyI with d := true } } (fun t =>
      t.flags == onlyI && t.pc == 0x0601 && t.cycles == 2) = true := by decide

/-- V-TF-11: `CLI`. -/
theorem test_cli :
    gives (start 0x0600 [0x58] []) (fun t =>
      t.flags == { onlyI with i := false } && t.pc == 0x0601 && t.cycles == 2) = true := by decide

/-- V-TF-12: `CLV`. -/
theorem test_clv :
    gives { start 0x0600 [0xB8] [] with flags := { onlyI with v := true } } (fun t =>
      t.flags == onlyI && t.pc == 0x0601 && t.cycles == 2) = true := by decide

/-- V-TF-13: `SEC`. -/
theorem test_sec :
    gives (start 0x0600 [0x38] []) (fun t =>
      t.flags == { onlyI with c := true } && t.pc == 0x0601 && t.cycles == 2) = true := by decide

/-- V-TF-14: `SED`. -/
theorem test_sed :
    gives (start 0x0600 [0xF8] []) (fun t =>
      t.flags == { onlyI with d := true } && t.pc == 0x0601 && t.cycles == 2) = true := by decide

/-- V-TF-15: `SEI`. -/
theorem test_sei :
    gives { start 0x0600 [0x78] [] with flags := { onlyI with i := false } } (fun t =>
      t.flags == onlyI && t.pc == 0x0601 && t.cycles == 2) = true := by decide

/-- V-TF-17: `NOP`. -/
theorem test_nop :
    gives { start 0x0600 [0xEA] [] with a := 0x12, x := 0x34, flags := { onlyI with z := true } } (fun t =>
      t.flags == { onlyI with z := true } && t.pc == 0x0601 && t.cycles == 2) = true := by decide

/-- V-UN-2: `(unrecognized FF)`. -/
theorem test_unrecognized_pc_wraps :
    gives (start 0xFFFF [0xFF] []) (fun t =>
      t.flags == onlyI && t.pc == 0x0000 && t.log == [⟨0xFFFF, 0xFF⟩] && t.cycles == 2) = true := by decide

/-- V-UN-3: `(unrecognized 80)`. -/
theorem test_unrecognized_one_byte :
    gives { start 0x0600 [0x80, 0x00] [] with a := 0x55, flags := { onlyI with n := true } } (fun t =>
      t.flags == { onlyI with n := true } && t.pc == 0x0601 && t.log == [⟨0x0600, 0x80⟩] &&
      t.cycles == 2) = true := by decide

/-! ### The software trap (vectors V8) -/

/-- V-SY-3: `BRK`. -/
theorem test_brk_stack_wraps :
    gives { start 0x0600 [0x00, 0xEA] [(0xFFFE, 0x34), (0xFFFF, 0x12)]
      with sp := 0x01, flags := { onlyI with i := false } } (fun t =>
      t.sp == 0xFE && t.flags == onlyI && t.pc == 0x1234 && t.memRead 0x0101 == 0x06 && t.memRead 0x0100 == 0x02 &&
      t.memRead 0x01FF == 0x30 && t.cycles == 7) = true := by decide

/-- V-SY-4: `BRK`. -/
theorem test_brk_return_address_wraps :
    gives { start 0xFFFF [0x00] [(0xFFFE, 0x00), (0xFFFF, 0x00)] with flags := { onlyI with i := false } } (fun t =>
      t.sp == 0xFA && t.flags == onlyI && t.pc == 0x0000 && t.memRead 0x01FD == 0x00 && t.memRead 0x01FC == 0x01 &&
      t.memRead 0x01FB == 0x30 && t.cycles == 7) = true := by decide

/-- V-SY-6: `RTI`. -/
theorem test_rti :
    gives { start 0x0600 [0x40] [(0x01FB, 0xCF), (0x01FC, 0x00), (0x01FD, 0x80)] with sp := 0xFA } (fun t =>
      t.sp == 0xFD && t.flags == { onlyI with n := true, v := true, d := true, z := true, c := true } &&
      t.pc == 0x8000 && t.cycles == 6) = true := by decide

/-- V-SY-7: `RTI`. -/
theorem test_rti_stack_wraps :
    gives { start 0x0600 [0x40] [(0x0100, 0x34), (0x0101, 0x12), (0x01FF, 0x00)]
      with sp := 0xFE, flags := { onlyI with n := true } } (fun t =>
      t.sp == 0x01 && t.flags == { onlyI with i := false } && t.pc == 0x1234 && t.cycles == 6) = true := by decide

/-! ### Reset, the host's fetch word, and the end of a run -/

/-- R300, R310: loading an image with a reset vector and resetting starts at that vector, with I set. -/
theorem test_boot :
    let s := boot defaultParams [(0xFFFC, 0x00), (0xFFFD, 0x06)] defaultResetInputs
    s.pc = 0x0600 ∧ s.flags.i = true ∧ s.log = [] := by decide

/-- R300: a PC override is taken as it is. -/
theorem test_reset_override : (resetWith { defaultResetInputs with pcOverride := some 0x8000 } State.reset).pc = 0x8000 := by
  decide

/-- A table word placed at PC is the next step's instruction: `JSR $0700` (R192). -/
theorem test_with_fetch_word : gives (State.reset.withFetchWord 24 0x070020) (fun t => t.pc == 0x0700 && t.sp == 0xFB) = true := by
  decide

/-- R50: a write of the byte an unlisted address reads as leaves no entry behind. -/
theorem test_memory_canonical : ((State.reset.memWrite 0x0010 0x42).memWrite 0x0010 0x00).mem = [] := by decide

/-- R311: the launch premise holds of a run that reads what was loaded, and fails one byte later. -/
theorem test_launch :
    let image := [(0x0600, 0xA9), (0x0601, 0x07), (0x0602, 0xEA), (0xFFFC, 0x00), (0xFFFD, 0x06)]
    launchOK defaultParams image defaultResetInputs 2 = true ∧ launchOK defaultParams image defaultResetInputs 3 = false := by
  decide

/-- R117: another CYCLE_TABLE changes its own rows only (`INX` here, 9 for 2), and never an unrecognized opcode. -/
theorem test_cycle_table :
    let p : Params := { defaultParams with cycleTable := [(0xE8, 9), (0x02, 9)] }
    gives { start 0x0600 [0xE8] [] with params := p } (fun t => t.x == 0x01 && t.cycles == 9) = true ∧
    gives { start 0x0600 [0xC8] [] with params := p } (fun t => t.cycles == 2) = true ∧
    gives { start 0x0600 [0x02] [] with params := p } (fun t => t.cycles == 2) = true := by decide

/-! ## Witnesses: what the hypotheses of each obligation ask for can be met

Each is named after its obligation, one per clause where there are several. -/

/-- A state with bytes at both ends of memory, an entry in the log, and `JSR` across the end of memory at PC. -/
def edge : State :=
  { start 0xFFFE [0x20, 0x34, 0x12] [] with log := [⟨0x0600, 0x02⟩], sp := 0x00 }

/-- `SameAt` from a check address by address. -/
theorem sameAt_of_all {as : List Addr} {s s' : State} (h : as.all (fun a => s'.memRead a == s.memRead a) = true) :
    SameAt as s s' := fun a ha => by simpa using List.all_eq_true.mp h a ha

theorem test_witness_DecodeOfEncode :
    WellFormed (.sta (.indY 0xFF)) = true ∧ WellFormed (.unrecognized 0xFF) = true ∧ WellFormed .brk = true := by decide

theorem test_witness_EncodeOfDecode :
    decode [0xBD, 0x00, 0x02, 0xEA] = .ok (.lda (.mem (.absX 0x0200)), [0xEA]) ∧
    decode [0xFF] = .ok (.unrecognized 0xFF, []) := ⟨rfl, rfl⟩

/-- LengthFromOpcodeAlone for 0xFF (no operand byte) and for 0xBD (two): just enough bytes, and one too few. -/
theorem test_witness_LengthFromOpcodeAlone :
    isUnrecognized 0xFF = true ∧ 2 ≤ ([0x00, 0x02] : List Byte).length ∧ ([0x00] : List Byte).length < 2 ∧
    decode [0xBD, 0x00, 0x02] = .ok (.lda (.mem (.absX 0x0200)), []) ∧ decode [0xBD, 0x00] = .error (.truncated 0xBD) :=
  ⟨by decide, by decide, by decide, rfl, rfl⟩

/-- UnrecognizedOpcodes: a state with 0xFF at PC = 0xFFFF, and a byte next to listed ones that is not listed. -/
theorem test_witness_UnrecognizedOpcodes :
    (start 0xFFFF [0xFF] []).memRead (start 0xFFFF [0xFF] []).pc = 0xFF ∧ isUnrecognized 0xFF = true ∧
    isUnrecognized 0xFE = false := by decide

theorem test_witness_StepRunsDecodedInstruction : decode (fetchBytes edge) = .ok (.jsr 0x1234, []) := rfl

/-- StepRunsEncodedInstruction, with the instruction's last byte at address 0. -/
theorem test_witness_StepRunsEncodedInstruction :
    WellFormed (.jsr 0x1234) = true ∧ (bytesFrom edge.pc (Instr.jsr 0x1234).length).map edge.memRead = encode (.jsr 0x1234) := by
  decide

theorem test_witness_PcAdvance_other : controlTransfer (.sta (.absX 0xFFFF)) = false ∧ controlTransfer (.unrecognized 0x80) = false := by
  decide

theorem test_witness_PcAdvance_branch :
    branchCondition edge (.bne 0x80) = some (true, 0x80) ∧ branchCondition edge (.beq 0x7F) = some (false, 0x7F) := by decide

/-- CycleCount: the default table; an instruction with a row; and a table with one. -/
theorem test_witness_CycleCount :
    State.reset.params.cycleTable = [] ∧ (Instr.lda (.mem (.absX 0xFFFF))).opcode = some 0xBD ∧
    isUnrecognized 0xBD = false ∧ ({ defaultParams with cycleTable := [(0xBD, 9)] } : Params).cycleTable = (0xBD, 9) :: [] := by
  decide

theorem test_witness_ZeroPageModes :
    WellFormed (.ldx (.mem (.zpY 0xFF))) = true ∧ (Instr.ldx (.mem (.zpY 0xFF))).mode = .zeropageY ∧
    WellFormed (.stx (.zpY 0x00)) = true ∧ (Instr.stx (.zpY 0x00)).mode = .zeropageY := by decide

/-- PageConfinement: an address of each list, at the wrap of its page. -/
theorem test_witness_PageConfinement :
    0x0000 ∈ pointerReads edge (.indY 0xFF) ∧ 0x01FF ∈ storedAddrs edge (.jsr 0x1234) ∧ 0x0101 ∈ dataReads edge .rti := by
  decide

/-- MemoryLaws: two addresses, the ends of memory, in a canonical memory; and a byte that is already there. -/
theorem test_witness_MemoryLaws_write :
    Memory.wf edge.mem = true ∧ (0x0000 : Addr) ≠ 0xFFFF ∧ edge.memRead 0xFFFF = 0x34 := by decide

theorem test_witness_MemoryLaws_canonical :
    Memory.wf (edge.memWrite 0x0010 0x42).mem = true ∧ Memory.wf ((edge.memWrite 0x0010 0x01).memWrite 0x0010 0x42).mem = true ∧
    (edge.memWrite 0x0010 0x42).mem = ((edge.memWrite 0x0010 0x01).memWrite 0x0010 0x42).mem := by decide

theorem test_witness_RegisterFrame :
    writesA (.asl (.mem (.zp 0x00))) = false ∧ writesX .txs = false ∧ writesY .tya = false ∧ writesSp .tsx = false ∧
    ∀ op, Instr.nop ≠ .unrecognized op := by
  refine ⟨rfl, rfl, rfl, rfl, fun op h => by cases h⟩

theorem test_witness_FlagFrame :
    writesNZ .txs = false ∧ writesV (.cmp (.imm 0x00)) = false ∧ writesC (.inc (.zp 0x00)) = false ∧
    writesD (.adc (.imm 0x00)) = false ∧ writesI .php = false := by decide

/-- MemoryFrame: an address outside JSR's two stack bytes 0x0100 and 0x01FF, and a form that stores nothing. -/
theorem test_witness_MemoryFrame :
    storedAddrs edge (.jsr 0x1234) = [0x0100, 0x01FF] ∧ 0x01FE ∉ storedAddrs edge (.jsr 0x1234) ∧
    storedAddrs edge (.rol .acc) = [] := by decide

theorem test_witness_DecimalAndInterruptFlagsUnread :
    Instr.plp ≠ .php ∧ Instr.plp ≠ .brk ∧ writesD .plp = true ∧ writesD .sei = false ∧ writesI .sei = true ∧
    writesI .sed = false := by decide

/-- StepDependsOnItsReads: two states that differ in a byte the step does not read, a stack byte it stores to. -/
theorem test_witness_StepDependsOnItsReads :
    SameButMemory edge (edge.memWrite 0x0100 0x99) ∧ SameAt (stepReads edge) edge (edge.memWrite 0x0100 0x99) ∧
    edge ≠ edge.memWrite 0x0100 0x99 := by
  refine ⟨?_, ?_, ?_⟩
  · show (edge.memWrite 0x0100 0x99).setMem edge.mem = edge; decide
  · exact sameAt_of_all (by decide)
  · decide

/-- A loaded `PHA`, `PLA`: two steps, the second of which reads what the first stored. -/
def pushPull : State := start 0x0600 [0x48, 0x68] []

theorem test_witness_LaunchPremiseSuffices :
    readsKnown 2 [0x0600, 0x0601] pushPull = true ∧ SameButMemory pushPull (pushPull.memWrite 0x0602 0x99) ∧
    SameAt [0x0600, 0x0601] pushPull (pushPull.memWrite 0x0602 0x99) := by
  refine ⟨?_, ?_, ?_⟩
  · decide
  · show (pushPull.memWrite 0x0602 0x99).setMem pushPull.mem = pushPull; decide
  · exact sameAt_of_all (by decide)

/-- The invariant holds of a state with listed memory and a logged event, and its step completes. -/
theorem test_witness_StepKeepsInvariant : Inv edge ∧ ∃ t, step edge = .next t := by
  refine ⟨?_, _, rfl⟩
  show Memory.wf edge.mem = true ∧ ∀ e ∈ edge.log, isUnrecognized e.byte = true
  decide

theorem test_witness_ResetMeetsInvariant : Inv edge := test_witness_StepKeepsInvariant.1

theorem test_witness_ResetProcedure :
    { defaultResetInputs with pcOverride := some 0xFFFF }.pcOverride = some 0xFFFF ∧ defaultResetInputs.pcOverride = none := by
  decide

/-- StackLaws: 256 bytes, after which the next push is the 257th. -/
theorem test_witness_StackLaws : (List.replicate 256 (0x00 : Byte)).length = 256 := List.length_replicate

/-- SubroutineLaw: a state that keeps SP, the convention and the two stack bytes of JSR but not A. -/
theorem test_witness_SubroutineLaw :
    let t := (edge.pushWord (returnAddress edge)).finishAt 0x1234 6
    let w := t.setA 0x55
    execJsr 0x1234 edge = .next t ∧ w.sp = t.sp ∧ w.params = edge.params ∧
    w.memRead (stackCell edge 0) = t.memRead (stackCell edge 0) ∧
    w.memRead (stackCell edge (-1)) = t.memRead (stackCell edge (-1)) := by
  refine ⟨rfl, ?_⟩; decide

/-- TrapRoundTrip: a state that keeps SP and the three stack bytes of BRK but not A. -/
theorem test_witness_TrapRoundTrip :
    let t := edge.takeBreak.setCycles 7
    let w := t.setA 0x55
    execBrk edge = .next t ∧ w.sp = t.sp ∧
    ∀ n ∈ [(0 : Int), -1, -2], w.memRead (stackCell edge n) = t.memRead (stackCell edge n) := by
  refine ⟨rfl, ?_⟩; decide

/-- EndOfRun: `JMP *` across the end of memory is a halt idiom; the least budget; and a table of counts from 1 to 9. -/
theorem test_witness_EndOfRun :
    haltIdiom (start 0xFFFE [0x4C, 0xFE, 0xFF] []) = true ∧ haltIdiom edge = false ∧ 1 ≤ 1 ∧
    ∀ e ∈ ([(0xE8, 1), (0x00, 9)] : CycleTable), 1 ≤ e.2 ∧ e.2 ≤ 9 := by decide

end Sys2Proof.Tests
end

