-- ==== Sys2Proof/Proofs/Scope.lean ====
section
/-! SUPPORT. The family 00_scope: every step completes, what it does to the two outputs (the log and the cycle count),
and the invariant. `nextState` names the state an instruction leaves; its laws say, once for all instructions, what that
state's memory, log and count are. -/

namespace Sys2Proof.Machine

open Sys2Proof.Safety

/-! ### The fetched instruction is one the opcode map has a byte for -/

/-- Whether the opcode map has a byte for what is decoded depends on the opcode byte alone (R89). -/
theorem wellFormed_instrOf_operands (op b1 b2 : Byte) : WellFormed (instrOf op b1 b2) = WellFormed (instrOf op 0 0) := by
  simp only [instrOf, decodeRow0, decodeRow1, decodeRow2, decodeRow3, decodeRow4, decodeRow5, decodeRow6, decodeRow7,
    decodeRow8, decodeRow9, decodeRowA, decodeRowB, decodeRowC, decodeRowD, decodeRowE, decodeRowF]
  split <;> split <;> simp only [WellFormed, ReadOp.aluForm, ReadOp.bitForm, ReadOp.indexCompareForm, ReadOp.ldxForm,
    ReadOp.ldyForm, MemMode.staForm, MemMode.stxForm, MemMode.styForm]

/-- The decoder answers only terms the opcode map has a byte for (R85, R87): a check of the 256 opcode bytes. -/
theorem wellFormed_instrOf (op b1 b2 : Byte) : WellFormed (instrOf op b1 b2) = true := by
  rw [wellFormed_instrOf_operands]
  revert op
  decide

theorem wellFormed_fetchInstr (s : State) : WellFormed (fetchInstr s) = true := wellFormed_instrOf _ _ _

/-! ### The next state -/

/-- The state an instruction leaves. `exec_eq_nextState` says that the last arm is never taken. -/
def nextState (i : Instr) (s : State) : State :=
  match exec i s with
  | .next t => t
  | .fault _ | .refused _ => s

/-- A branch is executed by the branch family (R173) with its own condition. -/
theorem exec_branch {i : Instr} {s : State} {cond : Bool} {b1 : Byte} (h : branchCondition s i = some (cond, b1)) :
    exec i s = branchIf i cond b1 s := by
  cases i with
  | bpl | bmi | bvc | bvs | bcc | bcs | bne | beq => cases h; rfl
  | _ => cases h

/-- Every instruction completes (R5, R270). -/
theorem exec_eq_nextState (i : Instr) (s : State) : exec i s = .next (nextState i s) := by
  have branch {cond b1} (h : branchCondition s i = some (cond, b1)) : exec i s = .next (nextState i s) := by
    simp only [nextState, exec_branch h, branchIf_next]
  cases i with
  | bpl | bmi | bvc | bvs | bcc | bcs | bne | beq => exact branch rfl
  | _ => rfl

theorem step_eq_nextState (s : State) : step s = .next (nextState (fetchInstr s) s) := exec_eq_nextState _ _

/-- The state a branch leaves (R173). -/
theorem nextState_branch {i : Instr} {s : State} {cond : Bool} {b1 : Byte} (h : branchCondition s i = some (cond, b1)) :
    nextState i s = if cond
      then s.finishAt (branchTarget s b1) (baseCycles s.params i + takenExtra (branchTarget s b1) (branchNext s))
      else s.finishAt (branchNext s) (baseCycles s.params i) := by
  simp only [nextState, exec_branch h, branchIf_next]

theorem nextState_branch_mem {i : Instr} {s : State} {cond : Bool} {b1 : Byte}
    (h : branchCondition s i = some (cond, b1)) : (nextState i s).mem = s.mem := by
  rw [nextState_branch h]
  cases cond <;> rfl

theorem nextState_jsr (target : Addr) (s : State) : nextState (.jsr target) s =
    (s.pushWord (returnAddress s)).finishAt target (baseCycles s.params (.jsr target)) := rfl

theorem nextState_brk (s : State) : nextState .brk s = s.takeBreak.setCycles (baseCycles s.params .brk) := rfl

theorem nextState_rti (s : State) : nextState .rti s = s.returnFromBreak.setCycles (baseCycles s.params .rti) := rfl

/-! ### Memory -/

/-- Every instruction keeps the canonical form of memory: the ones that store do it by `memWrite` or `push`. -/
theorem wf_nextState (i : Instr) (s : State) (h : Memory.wf s.mem = true) : Memory.wf (nextState i s).mem = true := by
  have branch {cond b1} (hb : branchCondition s i = some (cond, b1)) : Memory.wf (nextState i s).mem = true := by
    rwa [nextState_branch_mem hb]
  cases i with
  | sta | stx | sty | inc | dec => exact Memory.wf_write _ _ _ h (BitVec.isLt _)
  | asl o | lsr o | rol o | ror o =>
    cases o with
    | acc => exact h
    | mem m => exact Memory.wf_write _ _ _ h (BitVec.isLt _)
  | pha | php => exact s.wf_push _ h
  | jsr => rw [nextState_jsr, State.finishAt_mem]; exact s.wf_pushWord _ h
  | brk => rw [nextState_brk, State.setCycles_mem]; exact s.wf_takeBreak h
  | rti => rwa [nextState_rti, State.setCycles_mem, State.returnFromBreak_mem]
  | bpl | bmi | bvc | bvs | bcc | bcs | bne | beq => exact branch rfl
  | _ => exact h

/-! ### The log and the cycle count -/

/-- The state with other values of the two outputs (R5, R8). -/
def State.withOutputs (s : State) (n : Nat) (l : List LogEvent) : State := { s with cycles := n, log := l }

/-- The events an instruction logs (R8): one, of an unrecognized opcode. -/
def events (s : State) : Instr → List LogEvent
  | .unrecognized op => [⟨s.pc, op⟩]
  | _ => []

theorem nextState_branch_withOutputs {i : Instr} {s : State} {cond : Bool} {b1 : Byte}
    (h : branchCondition s i = some (cond, b1)) (n : Nat) (l : List LogEvent) :
    nextState i (s.withOutputs n l) = (nextState i s).withOutputs (nextState i s).cycles l := by
  have h' : branchCondition (s.withOutputs n l) i = some (cond, b1) := h
  rw [nextState_branch h, nextState_branch h']
  cases cond <;> rfl

/-- The outputs are never read: with other outputs before it, an instruction leaves the same state but for the log,
which is the other one with the same events after it (R8, R119). -/
theorem nextState_withOutputs (i : Instr) (s : State) (n : Nat) (l : List LogEvent) :
    nextState i (s.withOutputs n l) = (nextState i s).withOutputs (nextState i s).cycles (l ++ events s i) := by
  have silent (he : events s i = [])
      (h : nextState i (s.withOutputs n l) = (nextState i s).withOutputs (nextState i s).cycles l) :
      nextState i (s.withOutputs n l) = (nextState i s).withOutputs (nextState i s).cycles (l ++ events s i) := by
    rw [he, List.append_nil, h]
  cases i with
  | bpl | bmi | bvc | bvs | bcc | bcs | bne | beq => exact silent rfl (nextState_branch_withOutputs rfl n l)
  | asl o | lsr o | rol o | ror o => cases o <;> exact silent rfl rfl
  | unrecognized op => rfl
  | _ => exact silent rfl rfl

/-- Each instruction only appends its own events to the log (R8): `nextState_withOutputs` at the outputs `s` has. -/
theorem nextState_log (i : Instr) (s : State) : (nextState i s).log = s.log ++ events s i :=
  congrArg State.log (nextState_withOutputs i s s.cycles s.log)

/-- A well-formed instruction logs unrecognized opcodes only (R87). -/
theorem isUnrecognized_of_mem_events {i : Instr} {s : State} (hi : WellFormed i = true) :
    ∀ e ∈ events s i, isUnrecognized e.byte = true := by
  cases i with
  | unrecognized op => exact List.forall_mem_singleton.mpr hi
  | _ => exact List.forall_mem_nil _

/-- What every step keeps. -/
theorem inv_nextState {i : Instr} {s : State} (hi : WellFormed i = true) (h : Inv s) : Inv (nextState i s) := by
  obtain ⟨hmem, hlog⟩ := h
  refine ⟨wf_nextState i s hmem, ?_⟩
  rw [nextState_log, List.forall_mem_append]
  exact ⟨hlog, isUnrecognized_of_mem_events hi⟩

end Sys2Proof.Machine

open Sys2Proof Sys2Proof.Machine Sys2Proof.Safety

/-- Settles O27: the fetched instruction is well formed, so what it logs is an unrecognized opcode, and every store
keeps the canonical form. -/
theorem stepKeepsInvariant : Obligations.StepKeepsInvariant := by
  intro s t hs hstep
  rw [step_eq_nextState] at hstep
  cases hstep
  exact inv_nextState (wellFormed_fetchInstr s) hs

/-- Settles O12, by `nextState_withOutputs`. -/
theorem outputsAreNeverRead : Obligations.OutputsAreNeverRead := by
  intro i s
  refine ⟨nextState i s, events s i, exec_eq_nextState i s, nextState_log i s, fun n l => ?_⟩
  exact (exec_eq_nextState i (s.withOutputs n l)).trans (congrArg _ (nextState_withOutputs i s n l))

/-- Settles O9: no meaning ends in a fault or a refusal. -/
theorem everyStepCompletes : Obligations.EveryStepCompletes :=
  ⟨fun s => ⟨_, step_eq_nextState s⟩, fun i s => ⟨_, exec_eq_nextState i s⟩⟩
end

