-- ==== Sys2Proof/Proofs/CycleCount.lean ====
section
/-! SUPPORT. The count a step returns (spec/40_step_and_addressing.md R117, R118, spec/43_compare_branch.md R173). -/

namespace Sys2Proof.Machine

open Sys2Proof.Safety

/-! ### The count of every instruction -/

/-- `branch_extra` (R173): of a taken branch, one cycle and one more when the target lies on another page than the next
instruction; of anything else, none. -/
def branchExtra (s : State) (i : Instr) : Nat :=
  match branchCondition s i with
  | some (true, b1) => 1 + if (s.pc + 2 + b1.signExtend 16) &&& 0xFF00 ≠ (s.pc + 2) &&& 0xFF00 then 1 else 0
  | _ => 0

theorem branchExtra_of_branch {i : Instr} {s : State} {cond : Bool} {b1 : Byte}
    (h : branchCondition s i = some (cond, b1)) :
    branchExtra s i = if cond then takenExtra (branchTarget s b1) (branchNext s) else 0 := by
  cases cond
  · simp [branchExtra, h]
  · simp [branchExtra, h, takenExtra, otherPage, branchTarget, branchNext, sext16]

theorem branchExtra_le (s : State) (i : Instr) : branchExtra s i ≤ 2 := by
  unfold branchExtra
  split
  · split <;> decide
  · decide

/-- The penalty of an eligible access that crosses a page (R117). -/
def pageExtra (s : State) (i : Instr) : Nat := if pagePenalty i && crossed s i then 1 else 0

/-- A branch is not eligible for the page penalty, and costs 2 by default (R117, R118). -/
theorem pagePenalty_of_branch {i : Instr} {s : State} {p : Bool × Byte} (h : branchCondition s i = some p) :
    pagePenalty i = false ∧ defaultCycles i = 2 := by
  cases i with
  | bpl | bmi | bvc | bvs | bcc | bcs | bne | beq => exact ⟨rfl, rfl⟩
  | _ => cases h

theorem nextState_branch_cycles {i : Instr} {s : State} {cond : Bool} {b1 : Byte}
    (h : branchCondition s i = some (cond, b1)) :
    (nextState i s).cycles = baseCycles s.params i + pageExtra s i + branchExtra s i := by
  rw [nextState_branch h, branchExtra_of_branch h, pageExtra, (pagePenalty_of_branch h).1]
  cases cond <;> rfl

/-- The count of an instruction is its base cost, its page penalty and its branch extra (R117, R173). -/
theorem nextState_cycles (i : Instr) (s : State) :
    (nextState i s).cycles = baseCycles s.params i + pageExtra s i + branchExtra s i := by
  cases i with
  | bpl | bmi | bvc | bvs | bcc | bcs | bne | beq => exact nextState_branch_cycles rfl
  | _ => rfl

/-! ### The bounds of a count under the default table -/

theorem readCycles_bounds (r : ReadOp) : 2 ≤ ReadOp.baseCycles r ∧ ReadOp.baseCycles r ≤ 6 := by
  rcases r with v | m
  · simp [ReadOp.baseCycles]
  · cases m <;> simp [ReadOp.baseCycles, MemMode.readCycles]

theorem storeCycles_bounds (m : MemMode) : 2 ≤ MemMode.storeCycles m ∧ MemMode.storeCycles m ≤ 6 := by
  cases m <;> simp [MemMode.storeCycles]

theorem rmwCycles_bounds (m : RmwMode) : 2 ≤ RmwMode.cycles m ∧ RmwMode.cycles m ≤ 7 := by
  cases m <;> simp [RmwMode.cycles]

theorem defaultCycles_bounds (i : Instr) : 2 ≤ defaultCycles i ∧ defaultCycles i ≤ 7 := by
  cases i with
  | adc r | sbc r | and r | ora r | eor r | bit r | lda r | ldx r | ldy r | cmp r | cpx r | cpy r =>
    exact (readCycles_bounds r).imp_right Nat.le_succ_of_le
  | sta m | stx m | sty m => exact (storeCycles_bounds m).imp_right Nat.le_succ_of_le
  | asl o | lsr o | rol o | ror o =>
    cases o with
    | acc => decide
    | mem m => exact rmwCycles_bounds m
  | inc m | dec m => exact rmwCycles_bounds m
  | _ => simp [defaultCycles]

/-- The penalty never comes on top of the largest base cost: the eligible instructions are read-class (R117, R118). -/
theorem defaultCycles_le_of_pagePenalty {i : Instr} (h : pagePenalty i = true) : defaultCycles i ≤ 6 := by
  cases i with
  | adc r | sbc r | and r | ora r | eor r | bit r | lda r | ldx r | ldy r | cmp r | cpx r | cpy r =>
    exact (readCycles_bounds r).2
  | _ => cases h

theorem defaultCycles_add_pageExtra_le (s : State) (i : Instr) : defaultCycles i + pageExtra s i ≤ 7 := by
  have hle := (defaultCycles_bounds i).2
  unfold pageExtra
  split
  · next h =>
    have := defaultCycles_le_of_pagePenalty (Bool.and_eq_true_iff.mp h).1
    omega
  · omega

/-- Under the default table a count lies between 2 and 7 (95 L7). -/
theorem nextState_cycles_bounds (i : Instr) (s : State) (h : s.params.cycleTable = []) :
    2 ≤ (nextState i s).cycles ∧ (nextState i s).cycles ≤ 7 := by
  rw [nextState_cycles, baseCycles_default _ h]
  have hlow := (defaultCycles_bounds i).1
  rcases hb : branchCondition s i with _ | p
  · have hbranch : branchExtra s i = 0 := by simp [branchExtra, hb]
    have := defaultCycles_add_pageExtra_le s i
    omega
  · obtain ⟨hpage, hbase⟩ := pagePenalty_of_branch hb
    have hextra : pageExtra s i = 0 := by simp [pageExtra, hpage]
    have := branchExtra_le s i
    omega

/-! ### Eligibility, the default table and the table in force -/

theorem readPagePenalty_iff (r : ReadOp) :
    ReadOp.pagePenalty r = true ↔ r.mode ∈ [Mode.absoluteX, .absoluteY, .indirectIndexedY] := by
  rcases r with v | m
  · simp [ReadOp.pagePenalty, ReadOp.mode]
  · cases m <;> simp [ReadOp.pagePenalty, ReadOp.mode, MemMode.mode]

/-- The instructions that are eligible for the page penalty (R117): the read-class ones in three modes. -/
theorem pagePenalty_iff (i : Instr) :
    pagePenalty i = true ↔ i.mode ∈ [Mode.absoluteX, .absoluteY, .indirectIndexedY] ∧ ∃ r : ReadOp,
      i ∈ [Instr.adc r, .sbc r, .and r, .ora r, .eor r, .cmp r, .lda r, .ldx r, .ldy r, .cpx r, .cpy r, .bit r] := by
  cases i with
  | adc r | sbc r | and r | ora r | eor r | bit r | lda r | ldx r | ldy r | cmp r | cpx r | cpy r =>
    exact (readPagePenalty_iff r).trans (iff_self_and.mpr fun _ => ⟨r, by simp⟩)
  | _ => simp [pagePenalty]

/-- The base costs of R118's table, a row of it at a time. -/
theorem defaultCycles_table : DefaultCycles := by
  intro b w
  simp only [List.forall_mem_cons, List.not_mem_nil, false_imp_iff, implies_true, and_true,
    List.cons_append, List.nil_append]
  and_intros <;> rfl

/-- An instruction with a descriptor costs the count of its opcode's row (R84, R117). -/
theorem baseCycles_of_opcode (p : Params) {i : Instr} {op : Byte} (h : i.opcode = some op)
    (hop : isUnrecognized op = false) : baseCycles p i = tableCycles p op (defaultCycles i) := by
  unfold baseCycles
  split
  · next op' =>
    exfalso
    simp only [Instr.opcode, Option.ite_none_right_eq_some, Option.some.injEq] at h
    obtain ⟨hop', rfl⟩ := h
    simp [hop] at hop'
  · rw [h]

theorem tableCycles_nil {p : Params} (h : p.cycleTable = []) (op : Byte) (n : Nat) : tableCycles p op n = n := by
  rw [tableCycles, h, cycleEntry_nil]

theorem tableCycles_cons {p : Params} {row : Byte} {count : Nat} {rest : CycleTable}
    (h : p.cycleTable = (row, count) :: rest) (op : Byte) (n : Nat) :
    tableCycles p op n = if row = op then count else tableCycles { p with cycleTable := rest } op n := by
  rw [tableCycles, h, cycleEntry_cons, tableCycles]

theorem cycleTableInForce : CycleTableInForce :=
  ⟨fun p _ _ => baseCycles_of_opcode p, fun _ _ => rfl, fun _ op n h => tableCycles_nil h op n,
    fun _ op _ n _ _ h => tableCycles_cons h op n⟩

end Sys2Proof.Machine

open Sys2Proof Sys2Proof.Machine Sys2Proof.Safety

/-- Settles O11: the count by `nextState_cycles`, its bounds by `nextState_cycles_bounds`. -/
theorem cycleCount : Obligations.CycleCount :=
  ⟨fun i s => ⟨nextState i s, exec_eq_nextState i s, nextState_cycles i s, nextState_cycles_bounds i s⟩,
    pagePenalty_iff, defaultCycles_table, cycleTableInForce⟩
end

