-- ==== Sys2Proof/Proofs/StateRules.lean ====
section
/-! SUPPORT. The family 10_state: which registers and flags an instruction leaves (R22 to R28), that D and I are stored
only (R29), the flags byte (R30, R31), and State.reset. -/

namespace Sys2Proof.Machine

open Sys2Proof.Safety

/-! ### Branches and shifts -/

/-- A branch leaves all but PC and the count (R173): any part of the state that `finishAt` leaves. -/
theorem nextState_branch_frame {α : Type} {i : Instr} {s : State} {p : Bool × Byte} (part : State → α)
    (hpart : ∀ w n, part (s.finishAt w n) = part s) (h : branchCondition s i = some p) :
    part (nextState i s) = part s := by
  rw [nextState_branch h]
  split <;> exact hpart _ _

@[simp] theorem State.writeBack_x (s : State) (r : Byte) (o : ShiftOp) : (s.writeBack r o).x = s.x := by
  cases o <;> rfl

@[simp] theorem State.writeBack_y (s : State) (r : Byte) (o : ShiftOp) : (s.writeBack r o).y = s.y := by
  cases o <;> rfl

@[simp] theorem State.writeBack_sp (s : State) (r : Byte) (o : ShiftOp) : (s.writeBack r o).sp = s.sp := by
  cases o <;> rfl

@[simp] theorem State.writeBack_params (s : State) (r : Byte) (o : ShiftOp) : (s.writeBack r o).params = s.params := by
  cases o <;> rfl

/-! ### Who writes a register (R22 to R25) -/

theorem nextState_a {i : Instr} (s : State) (h : writesA i = false) : (nextState i s).a = s.a := by
  cases i with
  | adc | sbc | and | ora | eor | lda | pla | txa | tya => cases h
  | asl o | lsr o | rol o | ror o =>
    cases o with
    | acc => cases h
    | mem => rfl
  | bpl | bmi | bvc | bvs | bcc | bcs | bne | beq => exact nextState_branch_frame State.a (fun _ _ => rfl) rfl
  | jsr | brk | rti => simp [nextState_jsr, nextState_brk, nextState_rti]
  | _ => rfl

theorem nextState_x {i : Instr} (s : State) (h : writesX i = false) : (nextState i s).x = s.x := by
  cases i with
  | ldx | tax | tsx | inx | dex => cases h
  | asl o | lsr o | rol o | ror o => exact s.writeBack_x _ o
  | bpl | bmi | bvc | bvs | bcc | bcs | bne | beq => exact nextState_branch_frame State.x (fun _ _ => rfl) rfl
  | jsr | brk | rti => simp [nextState_jsr, nextState_brk, nextState_rti]
  | _ => rfl

theorem nextState_y {i : Instr} (s : State) (h : writesY i = false) : (nextState i s).y = s.y := by
  cases i with
  | ldy | tay | iny | dey => cases h
  | asl o | lsr o | rol o | ror o => exact s.writeBack_y _ o
  | bpl | bmi | bvc | bvs | bcc | bcs | bne | beq => exact nextState_branch_frame State.y (fun _ _ => rfl) rfl
  | jsr | brk | rti => simp [nextState_jsr, nextState_brk, nextState_rti]
  | _ => rfl

theorem nextState_sp {i : Instr} (s : State) (h : writesSp i = false) : (nextState i s).sp = s.sp := by
  cases i with
  | txs | pha | php | pla | plp | jsr | rts | brk | rti => cases h
  | asl o | lsr o | rol o | ror o => exact s.writeBack_sp _ o
  | bpl | bmi | bvc | bvs | bcc | bcs | bne | beq => exact nextState_branch_frame State.sp (fun _ _ => rfl) rfl
  | _ => rfl

/-- No instruction writes a parameter (R311(d)). -/
theorem nextState_params (i : Instr) (s : State) : (nextState i s).params = s.params := by
  cases i with
  | asl o | lsr o | rol o | ror o => exact s.writeBack_params _ o
  | bpl | bmi | bvc | bvs | bcc | bcs | bne | beq => exact nextState_branch_frame State.params (fun _ _ => rfl) rfl
  | jsr | brk | rti => simp [nextState_jsr, nextState_brk, nextState_rti]
  | _ => rfl

/-- Only an unrecognized opcode logs an event (R225). -/
theorem events_eq_nil {i : Instr} (s : State) (h : ∀ op, i ≠ .unrecognized op) : events s i = [] := by
  cases i with
  | unrecognized op => exact absurd rfl (h op)
  | _ => rfl

/-! ### Who writes a flag (R28) -/

theorem nextState_flags_nz {i : Instr} (s : State) (h : writesNZ i = false) :
    (nextState i s).flags.n = s.flags.n ∧ (nextState i s).flags.z = s.flags.z := by
  cases i with
  | adc | sbc | and | ora | eor | bit | cmp | cpx | cpy => cases h
  | lda | ldx | ldy | pla | tax | tay | txa | tya | tsx => cases h
  | asl | lsr | rol | ror | inc | dec | inx | iny | dex | dey | plp | rti => cases h
  | bpl | bmi | bvc | bvs | bcc | bcs | bne | beq =>
    rw [nextState_branch_frame State.flags (fun _ _ => rfl) rfl]
    exact ⟨rfl, rfl⟩
  | _ => exact ⟨rfl, rfl⟩

theorem nextState_flags_v {i : Instr} (s : State) (h : writesV i = false) :
    (nextState i s).flags.v = s.flags.v := by
  cases i with
  | adc | sbc | bit | clv | plp | rti => cases h
  | bpl | bmi | bvc | bvs | bcc | bcs | bne | beq => exact nextState_branch_frame (·.flags.v) (fun _ _ => rfl) rfl
  | _ => rfl

theorem nextState_flags_c {i : Instr} (s : State) (h : writesC i = false) :
    (nextState i s).flags.c = s.flags.c := by
  cases i with
  | adc | sbc | asl | lsr | rol | ror | cmp | cpx | cpy | clc | sec | plp | rti => cases h
  | bpl | bmi | bvc | bvs | bcc | bcs | bne | beq => exact nextState_branch_frame (·.flags.c) (fun _ _ => rfl) rfl
  | _ => rfl

theorem nextState_flags_d {i : Instr} (s : State) (h : writesD i = false) :
    (nextState i s).flags.d = s.flags.d := by
  cases i with
  | cld | sed | plp | rti => cases h
  | bpl | bmi | bvc | bvs | bcc | bcs | bne | beq => exact nextState_branch_frame (·.flags.d) (fun _ _ => rfl) rfl
  | _ => rfl

theorem nextState_flags_i {i : Instr} (s : State) (h : writesI i = false) :
    (nextState i s).flags.i = s.flags.i := by
  cases i with
  | cli | sei | brk | plp | rti => cases h
  | bpl | bmi | bvc | bvs | bcc | bcs | bne | beq => exact nextState_branch_frame (·.flags.i) (fun _ _ => rfl) rfl
  | _ => rfl

/-! ### D and I are stored only (R29) -/

/-- The state with other values of D and I. -/
def State.withDI (s : State) (d b : Bool) : State := s.setFlags { s.flags with d := d, i := b }

/-- A branch tests N, V, Z or C, so it goes the same way. -/
theorem nextState_branch_withDI {i : Instr} {s : State} {cond : Bool} {b1 : Byte}
    (h : branchCondition s i = some (cond, b1)) (d b : Bool) :
    nextState i (s.withDI d b) = (nextState i s).withDI d b := by
  have h' : branchCondition (s.withDI d b) i = some (cond, b1) := h
  rw [nextState_branch h, nextState_branch h']
  cases cond <;> rfl

/-- But for PHP and BRK no instruction reads D or I: what it leaves differs in D and I only, and there not if it writes
the flag. -/
theorem nextState_withDI {i : Instr} (s : State) (d b : Bool) (hphp : i ≠ .php) (hbrk : i ≠ .brk) :
    nextState i (s.withDI d b) = (nextState i s).withDI
      (if writesD i then (nextState i s).flags.d else d) (if writesI i then (nextState i s).flags.i else b) := by
  cases i with
  | php => exact absurd rfl hphp
  | brk => exact absurd rfl hbrk
  | bpl | bmi | bvc | bvs | bcc | bcs | bne | beq => exact nextState_branch_withDI rfl d b
  | asl o | lsr o | rol o | ror o => cases o <;> rfl
  | _ => rfl

/-! ### The flags byte (R30, R31) -/

/-- The layout of the flags byte (R30): a check of the 64 values of the six flags. -/
theorem Flags.pack_toNat (f : Flags) : f.pack.toNat = 128 * f.n.toNat + 64 * f.v.toNat + 32 + 16 + 8 * f.d.toNat +
    4 * f.i.toNat + 2 * f.z.toNat + f.c.toNat := by
  obtain ⟨n, v, d, i, z, c⟩ := f
  revert n v d i z c
  decide

@[simp] theorem Flags.unpack_pack (f : Flags) : Flags.unpack f.pack = f := by
  obtain ⟨n, v, d, i, z, c⟩ := f
  revert n v d i z c
  decide

/-- Packing the flags of a byte sets its bits 5 and 4 (R31): a check of the 256 bytes. -/
theorem Flags.pack_unpack (b : Byte) : (Flags.unpack b).pack = b ||| 0x30 := by
  revert b
  decide

end Sys2Proof.Machine

open Sys2Proof Sys2Proof.Machine Sys2Proof.Safety

/-- Settles O21: a frame lemma per register, and for the log `nextState_log`. -/
theorem registerFrame : Obligations.RegisterFrame := by
  intro i s
  refine ⟨nextState i s, exec_eq_nextState i s, nextState_a s, nextState_x s, nextState_y s, nextState_sp s,
    nextState_params i s, fun h => ?_⟩
  rw [nextState_log, events_eq_nil s h, List.append_nil]

/-- Settles O22: a frame lemma per flag, N and Z together. -/
theorem flagFrame : Obligations.FlagFrame := fun i s =>
  ⟨nextState i s, exec_eq_nextState i s, nextState_flags_nz s, nextState_flags_v s, nextState_flags_c s,
    nextState_flags_d s, nextState_flags_i s⟩

/-- Settles O24, by `nextState_withDI`. -/
theorem decimalAndInterruptFlagsUnread : Obligations.DecimalAndInterruptFlagsUnread := by
  intro i s d b hphp hbrk
  refine ⟨nextState i s, exec_eq_nextState i s, ?_⟩
  exact (exec_eq_nextState i (s.withDI d b)).trans (congrArg _ (nextState_withDI s d b hphp hbrk))

/-- Settles O52: the layout, and the round trip each way. -/
theorem flagsByte : Obligations.FlagsByte :=
  ⟨fun f => ⟨f.pack_toNat, f.unpack_pack⟩, fun b => ⟨Flags.pack_unpack b, rfl⟩⟩

/-- Settles O30: State.reset is written with the harness inputs, and lists no byte of memory. -/
theorem resetState : Obligations.ResetState := ⟨rfl, rfl, rfl, fun _ => rfl⟩
end

