-- ==== Sys2Proof/Proofs/MemoryLaws.lean ====
section
/-! SUPPORT. The family 20_memory: the laws of memory on its canonical form (spec/20_memory.md R50, R63), the word reads
(R55 to R57), the stack (R60, R61) and the pages that pointers and stack accesses stay in (95 L8, L9). -/

namespace Sys2Proof.Machine

open Sys2Proof.Safety

/-! ### The canonical form is one -/

/-- Below the first address a canonical list may have, every byte is unlisted. -/
theorem Memory.read_eq_unlistedByte {lo a : Nat} {m : Memory} (h : Memory.wfFrom (some lo) m = true) (ha : a ≤ lo) :
    m.read a = unlistedByte := by
  induction m generalizing lo with
  | nil => rfl
  | cons c rest ih =>
    obtain ⟨k, v⟩ := c
    obtain ⟨hk, -, -, hrest⟩ := (Memory.wfFrom_cons _ _ _ _).mp h
    have hlt : a < k := ha.trans_lt (hk lo rfl)
    rw [Memory.read, if_neg hlt.ne']
    exact ih hrest hlt.le

/-- Of two canonical lists with the same bytes, neither begins above the other. -/
theorem Memory.head_le_of_read_eq {lo : Option Nat} {k k' : Nat} {v v' : Byte} {rest rest' : Memory}
    (h : Memory.wfFrom lo ((k, v) :: rest) = true) (h' : Memory.wfFrom lo ((k', v') :: rest') = true)
    (heq : ∀ a < 65536, Memory.read ((k, v) :: rest) a = Memory.read ((k', v') :: rest') a) : k' ≤ k := by
  obtain ⟨-, hk, hv, -⟩ := (Memory.wfFrom_cons _ _ _ _).mp h
  obtain ⟨-, -, -, hrest'⟩ := (Memory.wfFrom_cons _ _ _ _).mp h'
  by_contra hlt
  have hread := heq k hk
  rw [Memory.read, if_pos rfl, Memory.read, if_neg (by omega), Memory.read_eq_unlistedByte hrest' (by omega)] at hread
  exact hv hread

/-- A canonical list that begins with a listed byte is not the empty memory. -/
theorem Memory.exists_read_ne_of_cons {lo : Option Nat} {k : Nat} {v : Byte} {rest : Memory}
    (h : Memory.wfFrom lo ((k, v) :: rest) = true) :
    ∃ a < 65536, Memory.read ((k, v) :: rest) a ≠ unlistedByte := by
  obtain ⟨-, hk, hv, -⟩ := (Memory.wfFrom_cons _ _ _ _).mp h
  exact ⟨k, hk, by rwa [Memory.read, if_pos rfl]⟩

/-- Two canonical lists with the same bytes are one. -/
theorem Memory.eq_of_read_eq {lo : Option Nat} {m m' : Memory} (h : Memory.wfFrom lo m = true)
    (h' : Memory.wfFrom lo m' = true) (heq : ∀ a < 65536, m.read a = m'.read a) : m = m' := by
  induction m generalizing lo m' with
  | nil =>
    cases m' with
    | nil => rfl
    | cons c' rest' =>
      obtain ⟨a, ha, hne⟩ := Memory.exists_read_ne_of_cons h'
      exact absurd (heq a ha).symm hne
  | cons c rest ih =>
    cases m' with
    | nil =>
      obtain ⟨a, ha, hne⟩ := Memory.exists_read_ne_of_cons h
      exact absurd (heq a ha) hne
    | cons c' rest' =>
      obtain ⟨k, v⟩ := c
      obtain ⟨k', v'⟩ := c'
      obtain rfl : k = k' := le_antisymm (Memory.head_le_of_read_eq h' h fun a ha => (heq a ha).symm)
        (Memory.head_le_of_read_eq h h' heq)
      obtain ⟨-, hk, -, hrest⟩ := (Memory.wfFrom_cons _ _ _ _).mp h
      obtain ⟨-, -, -, hrest'⟩ := (Memory.wfFrom_cons _ _ _ _).mp h'
      obtain rfl : v = v' := by simpa [Memory.read] using heq k hk
      refine congrArg _ (ih hrest hrest' fun a ha => ?_)
      by_cases hka : k = a
      · subst hka
        rw [Memory.read_eq_unlistedByte hrest le_rfl, Memory.read_eq_unlistedByte hrest' le_rfl]
      · simpa [Memory.read, hka] using heq a ha

theorem Memory.ext_of_wf {m m' : Memory} (h : Memory.wf m = true) (h' : Memory.wf m' = true)
    (heq : ∀ a : Addr, m.read a.toNat = m'.read a.toNat) : m = m' := by
  refine Memory.eq_of_read_eq h h' fun a ha => ?_
  simpa [Nat.mod_eq_of_lt ha] using heq (BitVec.ofNat 16 a)

/-! ### Writes on a canonical memory -/

section
variable {m : Memory} (hm : Memory.wf m = true)
include hm

theorem Memory.write_write_same (a : Addr) (v w : Byte) :
    (m.write a.toNat v).write a.toNat w = m.write a.toNat w := by
  refine Memory.ext_of_wf ?_ ?_ fun c => ?_
  · exact Memory.wf_write _ _ _ (Memory.wf_write _ _ _ hm a.isLt) a.isLt
  · exact Memory.wf_write _ _ _ hm a.isLt
  · simp only [Memory.read_write]
    split <;> rfl

theorem Memory.write_comm {a b : Addr} (hab : a ≠ b) (v w : Byte) :
    (m.write a.toNat v).write b.toNat w = (m.write b.toNat w).write a.toNat v := by
  refine Memory.ext_of_wf ?_ ?_ fun c => ?_
  · exact Memory.wf_write _ _ _ (Memory.wf_write _ _ _ hm a.isLt) b.isLt
  · exact Memory.wf_write _ _ _ (Memory.wf_write _ _ _ hm b.isLt) a.isLt
  · simp only [Memory.read_write, Addr.toNat_inj]
    split
    · next hcb => rw [if_neg (hcb ▸ hab.symm)]
    · rfl

theorem Memory.write_read_self (a : Addr) : m.write a.toNat (m.read a.toNat) = m := by
  refine Memory.ext_of_wf (Memory.wf_write _ _ _ hm a.isLt) hm fun c => ?_
  rw [Memory.read_write]
  split
  · next hca => rw [hca]
  · rfl

end

/-! ### Word reads -/

theorem byteAt_toNat (s : State) (a : Addr) : byteAt s a.toNat = (s.memRead a).toNat := by
  rw [byteAt, BitVec.ofNat_toNat, BitVec.setWidth_eq]

@[simp] theorem zext16_toNat (v : Byte) : (zext16 v).toNat = v.toNat := by
  have := v.isLt
  simp only [zext16, BitVec.toNat_setWidth]
  omega

/-- A word of the bytes at two addresses, as a number (R11). -/
theorem wordOf_memRead_toNat (s : State) (lo hi : Addr) :
    (wordOf (s.memRead hi) (s.memRead lo)).toNat = byteAt s lo.toNat + 256 * byteAt s hi.toNat := by
  rw [wordOf_toNat, byteAt_toNat, byteAt_toNat]
  omega

/-- Masking an address to its page (R57). -/
theorem toNat_and_pageMask (a : Addr) : (a &&& 0xFF00).toNat = a.toNat / 256 * 256 := by
  have ha := a.isLt
  have hdiv : (a.toNat &&& 0xFF00) / 2 ^ 8 = a.toNat / 2 ^ 8 % 2 ^ 8 := by
    rw [Nat.and_div_two_pow]
    exact Nat.and_two_pow_sub_one_eq_mod _ 8
  have hmod : (a.toNat &&& 0xFF00) % 2 ^ 8 = 0 := by
    rw [Nat.and_mod_two_pow]
    exact Nat.and_zero _
  have hand : (a &&& 0xFF00).toNat = a.toNat &&& 0xFF00 := BitVec.toNat_and a 0xFF00
  omega

/-- Masking an address to its offset in the page (R57). -/
theorem toNat_and_offsetMask (a : Addr) : (a &&& 0x00FF).toNat = a.toNat % 256 :=
  (BitVec.toNat_and a 0x00FF).trans (Nat.and_two_pow_sub_one_eq_mod _ 8)

/-- The high byte's address of a page-wrapped pointer stays in the pointer's page (R57). -/
theorem pageWrapNext_toNat (a : Addr) : (pageWrapNext a).toNat = a.toNat / 256 * 256 + (a.toNat + 1) % 256 := by
  have hor := Nat.two_pow_add_eq_or_of_lt (i := 8) (Nat.mod_lt (a + 1).toNat (by decide)) (a.toNat / 256)
  have hnext : (a + 1).toNat % 256 = (a.toNat + 1) % 256 := by
    rw [BitVec.toNat_add]
    exact Nat.mod_mod_of_dvd _ (by decide)
  rw [pageWrapNext, BitVec.toNat_or, toNat_and_pageMask, toNat_and_offsetMask, Nat.mul_comm, ← hor, hnext]

/-! ### The stack -/

theorem stackCell_zero (s : State) : stackCell s 0 = stackAddr s.sp := by
  apply BitVec.eq_of_toNat_eq
  have := s.sp.isLt
  rw [stackAddr_toNat, stackCell, BitVec.toNat_ofNat]
  omega

theorem stackCell_one (s : State) : stackCell s 1 = stackAddr (s.sp + 1) := by
  apply BitVec.eq_of_toNat_eq
  have hsp : (s.sp + 1).toNat = (s.sp.toNat + 1) % 256 := BitVec.toNat_add _ _
  rw [stackAddr_toNat, stackCell, BitVec.toNat_ofNat, hsp]
  omega

/-- A push leaves one byte (R60). -/
theorem storesByte_push (s : State) (v : Byte) : StoresByte s (s.push v) (stackAddr s.sp) v :=
  ⟨by rw [State.memRead_push, if_pos rfl], fun b hb => by rw [State.memRead_push, if_neg hb]⟩

/-- A pull after a push finds the pushed byte, SP being back (R61). -/
theorem State.pulled_push (s : State) (v : Byte) : (s.push v).pulled = v := by
  rw [State.pulled, State.push_sp, BitVec.sub_add_cancel, State.memRead_push, if_pos rfl]

/-! ### Pages -/

/-- A stack cell lies in page 1 (R25, 95 L9). -/
theorem stackAddr_mem_page (p : Byte) : 0x0100 ≤ (stackAddr p).toNat ∧ (stackAddr p).toNat < 0x0200 := by
  have := p.isLt
  rw [stackAddr_toNat]
  omega

theorem map_stackAddr_mem_page (offsets : List Byte) :
    ∀ a ∈ offsets.map stackAddr, 0x0100 ≤ a.toNat ∧ a.toNat < 0x0200 :=
  List.forall_mem_map.mpr fun p _ => stackAddr_mem_page p

/-- A zero-page address lies in page 0 (R56, 95 L8). -/
theorem zext16_mem_page (v : Byte) : (zext16 v).toNat < 0x0100 := by
  rw [zext16_toNat]
  exact v.isLt

theorem pointerReads_mem_page (s : State) (mode : MemMode) : ∀ a ∈ pointerReads s mode, a.toNat < 0x0100 := by
  cases mode with
  | indX | indY =>
    exact List.forall_mem_cons.mpr ⟨zext16_mem_page _, List.forall_mem_singleton.mpr (zext16_mem_page _)⟩
  | _ => exact List.forall_mem_nil _

end Sys2Proof.Machine

open Sys2Proof Sys2Proof.Machine Sys2Proof.Safety

/-- Settles O18: on the canonical form two memories with the same bytes are one, so each law is one about reads. -/
theorem memoryLaws : Obligations.MemoryLaws := by
  refine ⟨fun s a b v w hs => ⟨?_, ?_, fun hab => ⟨?_, ?_⟩, ?_⟩, fun m m' => Memory.ext_of_wf⟩
  · rw [State.memRead_memWrite, if_pos rfl]
  · exact congrArg s.setMem (Memory.write_write_same hs a v w)
  · rw [State.memRead_memWrite, if_neg hab.symm]
  · exact congrArg s.setMem (Memory.write_comm hs hab v w)
  · rintro rfl
    exact congrArg s.setMem (Memory.write_read_self hs a)

/-- Settles O19: each word read is `wordOf` of two bytes, by the number of the second one's address. -/
theorem wordReads : Obligations.WordReads := by
  intro s a z
  refine ⟨?_, ?_, ?_⟩
  · rw [State.memRead16, wordOf_memRead_toNat, BitVec.toNat_add]
    rfl
  · rw [State.memRead16ZP, wordOf_memRead_toNat, zext16_toNat, zext16_toNat, BitVec.toNat_add]
    rfl
  · rw [State.memRead16PageWrap, wordOf_memRead_toNat, pageWrapNext_toNat]

/-- Settles O20, by the rules of one push and one pull. -/
theorem pushAndPull : Obligations.PushAndPull := by
  intro s v
  rw [stackCell_zero, stackCell_one]
  refine ⟨storesByte_push s v, rfl, ?_, rfl, rfl, BitVec.toNat_add _ _, s.pulled_push v, BitVec.sub_add_cancel _ _⟩
  rw [State.push_sp, BitVec.toNat_sub, Nat.add_comm]
  rfl

/-- Settles O17: a pointer is two zero-page addresses, and the stack instructions list stack cells only. -/
theorem pageConfinement : Obligations.PageConfinement := by
  refine ⟨pointerReads_mem_page, fun _ _ => ⟨zext16_mem_page _, zext16_mem_page _⟩, fun s target => ?_, fun s => ?_⟩
  · simp only [List.forall_mem_cons, List.not_mem_nil, false_imp_iff, implies_true, and_true]
    exact ⟨map_stackAddr_mem_page [s.sp], map_stackAddr_mem_page [s.sp],
      map_stackAddr_mem_page [s.sp, s.sp - 1, s.sp - 2], map_stackAddr_mem_page [s.sp, s.sp - 1]⟩
  · simp only [List.forall_mem_cons, List.not_mem_nil, false_imp_iff, implies_true, and_true]
    exact ⟨map_stackAddr_mem_page [s.sp + 1], map_stackAddr_mem_page [s.sp + 1],
      map_stackAddr_mem_page [s.sp + 1, s.sp + 2], map_stackAddr_mem_page [s.sp + 1, s.sp + 2, s.sp + 3]⟩
end

