-- ==== Sys2Proof/Proofs/Stores.lean ====
section
/-! SUPPORT. The family 20_memory: what an instruction stores, and what it reads (spec/20_memory.md R59). `stores` lists
an instruction's writes with their bytes, and one equation, `nextState_setMem`, says what an instruction leaves when it
runs on another memory that agrees on the bytes it reads. -/

namespace Sys2Proof.Machine

open Sys2Proof.Safety

/-! ### States with another memory -/

/-- A state that differs in memory only is the same state with that memory. -/
theorem eq_setMem_of_sameButMemory {s s' : State} (h : SameButMemory s s') : s' = s.setMem s'.mem := by
  rw [← show s'.setMem s.mem = s from h]
  rfl

theorem pc_eq_of_sameButMemory {s s' : State} (h : SameButMemory s s') : s'.pc = s.pc := by
  rw [eq_setMem_of_sameButMemory h]
  rfl

theorem sameButMemory_setMem (s : State) (m : Memory) : SameButMemory s (s.setMem m) := rfl

theorem sameAt_cons {a : Addr} {as : List Addr} {s s' : State} :
    SameAt (a :: as) s s' ↔ s'.memRead a = s.memRead a ∧ SameAt as s s' := List.forall_mem_cons

theorem sameAt_append {as bs : List Addr} {s s' : State} :
    SameAt (as ++ bs) s s' ↔ SameAt as s s' ∧ SameAt bs s s' := List.forall_mem_append

/-! ### Operands read from another memory -/

section
variable {s : State} {m : Memory}

/-- The resolver reads memory for the pointers only (R111, R112). -/
theorem resolve_setMem {mode : MemMode} (h : SameAt (pointerReads s mode) s (s.setMem m)) :
    MemMode.resolve (s.setMem m) mode = MemMode.resolve s mode := by
  have pointer {z : Byte} (hz : SameAt [zext16 z, zext16 (z + 1)] s (s.setMem m)) :
      (s.setMem m).memRead16ZP z = s.memRead16ZP z := by
    rw [sameAt_cons, sameAt_cons] at hz
    obtain ⟨hlo, hhi, -⟩ := hz
    rw [State.memRead16ZP, hlo, hhi, State.memRead16ZP]
  cases mode with
  | indX b1 => exact congrArg (Resolved.mk · false) (pointer h)
  | indY b1 => exact congrArg (indexed · s.y) (pointer h)
  | _ => rfl

theorem effAddr_setMem {mode : MemMode} (h : SameAt (pointerReads s mode) s (s.setMem m)) :
    effAddr (s.setMem m) mode = effAddr s mode := congrArg Resolved.ea (resolve_setMem h)

/-- The read-modify-write modes have no pointer. -/
theorem effAddr_toMem_setMem (s : State) (m : Memory) (mode : RmwMode) :
    effAddr (s.setMem m) mode.toMem = effAddr s mode.toMem := by
  cases mode <;> rfl

theorem readValue_setMem {r : ReadOp} (h : SameAt (operandReads s r) s (s.setMem m)) :
    readValue (s.setMem m) r = readValue s r := by
  cases r with
  | imm v => rfl
  | mem mode =>
    obtain ⟨hptr, hea⟩ := sameAt_append.mp h
    rw [readValue_mem, effAddr_setMem hptr, (sameAt_cons.mp hea).1, readValue_mem]

theorem readCost_setMem {i : Instr} {r : ReadOp} (h : SameAt (operandReads s r) s (s.setMem m)) :
    readCost (s.setMem m) i r = readCost s i r := by
  cases r with
  | imm v => rfl
  | mem mode =>
    have hres := resolve_setMem (sameAt_append.mp h).1
    exact congrArg (fun res : Resolved => withPenalty _ _ res.crossed) hres

theorem shiftValue_setMem {o : ShiftOp} (h : SameAt (shiftReads s o) s (s.setMem m)) :
    shiftValue (s.setMem m) o = shiftValue s o := by
  cases o with
  | acc => rfl
  | mem mode => rw [shiftValue_mem, effAddr_toMem_setMem, (sameAt_cons.mp h).1, shiftValue_mem]

end

/-! ### The stores of an instruction -/

/-- What a shift stores (R150): its result, in the memory form. -/
def shiftStores (s : State) (f : Byte → Bool → Shifted) (o : ShiftOp) : List (Addr × Byte) :=
  (shiftReads s o).map fun a => (a, (f (shiftValue s o) s.flags.c).result)

/-- The bytes an instruction stores, with their addresses, in the order in which it writes them (R59). -/
def stores (s : State) : Instr → List (Addr × Byte)
  | .sta m => [(effAddr s m, s.a)]
  | .stx m => [(effAddr s m, s.x)]
  | .sty m => [(effAddr s m, s.y)]
  | .inc m => [(effAddr s m.toMem, s.memRead (effAddr s m.toMem) + 1)]
  | .dec m => [(effAddr s m.toMem, s.memRead (effAddr s m.toMem) - 1)]
  | .asl o => shiftStores s shiftLeft o
  | .lsr o => shiftStores s shiftRight o
  | .rol o => shiftStores s rotateLeft o
  | .ror o => shiftStores s rotateRight o
  | .pha => [(stackAddr s.sp, s.a)]
  | .php => [(stackAddr s.sp, s.flags.pack)]
  | .jsr _ => [(stackAddr s.sp, highByte (returnAddress s)), (stackAddr (s.sp - 1), lowByte (returnAddress s))]
  | .brk => [(stackAddr s.sp, highByte (s.pc + 2)), (stackAddr (s.sp - 1), lowByte (s.pc + 2)),
      (stackAddr (s.sp - 1 - 1), s.flags.pack)]
  | _ => []

theorem shiftStores_map_fst (s : State) (f : Byte → Bool → Shifted) (o : ShiftOp) :
    (shiftStores s f o).map Prod.fst = shiftReads s o := by
  simp [shiftStores, Function.comp_def]

/-- The stores are at the addresses of `storedAddrs`. -/
theorem stores_map_fst (s : State) (i : Instr) : (stores s i).map Prod.fst = storedAddrs s i := by
  cases i with
  | asl o | lsr o | rol o | ror o => exact shiftStores_map_fst s _ o
  | brk =>
    have hsp : s.sp - 1 - 1 = s.sp - 2 := BitVec.sub_sub s.sp 1 1
    exact congrArg (fun sp => [stackAddr s.sp, stackAddr (s.sp - 1), stackAddr sp]) hsp
  | _ => rfl

/-! ### Memory after a list of writes -/

/-- The writes are made in the order of the list. -/
def Memory.writeAll (m : Memory) (ws : List (Addr × Byte)) : Memory :=
  ws.foldl (fun m w => m.write w.1.toNat w.2) m

/-- A list of writes changes no byte at another address. -/
theorem Memory.read_writeAll_of_notMem {a : Addr} {ws : List (Addr × Byte)} (h : a ∉ ws.map Prod.fst) (m : Memory) :
    (m.writeAll ws).read a.toNat = m.read a.toNat := by
  induction ws generalizing m with
  | nil => rfl
  | cons w ws ih =>
    rw [List.map_cons, List.mem_cons, not_or] at h
    obtain ⟨hw, hws⟩ := h
    calc ((m.write w.1.toNat w.2).writeAll ws).read a.toNat
      _ = (m.write w.1.toNat w.2).read a.toNat := ih hws _
      _ = m.read a.toNat := by rw [Memory.read_write, if_neg (mt Addr.toNat_inj.mp hw)]

/-- At the addresses written, what memory held before a list of writes does not matter. -/
theorem Memory.read_writeAll_of_mem {a : Addr} {ws : List (Addr × Byte)} (h : a ∈ ws.map Prod.fst) (m m' : Memory) :
    (m.writeAll ws).read a.toNat = (m'.writeAll ws).read a.toNat := by
  induction ws generalizing m m' with
  | nil => cases h
  | cons w ws ih =>
    by_cases hws : a ∈ ws.map Prod.fst
    · exact ih hws _ _
    · obtain rfl : a = w.1 := (List.mem_cons.mp h).resolve_right hws
      calc ((m.write w.1.toNat w.2).writeAll ws).read w.1.toNat
        _ = (m.write w.1.toNat w.2).read w.1.toNat := Memory.read_writeAll_of_notMem hws _
        _ = (m'.write w.1.toNat w.2).read w.1.toNat := by simp only [Memory.read_write, if_true]
        _ = ((m'.write w.1.toNat w.2).writeAll ws).read w.1.toNat := (Memory.read_writeAll_of_notMem hws _).symm

/-! ### Running an instruction on another memory -/

section
variable {s : State} {m : Memory}

theorem nextState_readThen_setMem {i : Instr} {r : ReadOp} (f : Byte → State → State)
    (hi : ∀ s, exec i s = readThen i r f s) (hf : ∀ v, f v (s.setMem m) = (f v s).setMem m) (hst : stores s i = [])
    (h : SameAt (operandReads s r) s (s.setMem m)) :
    nextState i (s.setMem m) = (nextState i s).setMem (m.writeAll (stores s i)) := by
  simp only [nextState, hi, readThen_next, readValue_setMem h, readCost_setMem h, hf, hst]
  rfl

theorem nextState_storeByte_setMem {i : Instr} {mode : MemMode} (v : State → Byte)
    (hi : ∀ s, exec i s = storeByte i mode (v s) s) (hv : v (s.setMem m) = v s)
    (hst : stores s i = [(effAddr s mode, v s)]) (h : SameAt (pointerReads s mode) s (s.setMem m)) :
    nextState i (s.setMem m) = (nextState i s).setMem (m.writeAll (stores s i)) := by
  simp only [nextState, hi, storeByte_next, effAddr_setMem h, hv, hst]
  rfl

theorem nextState_modifyMem_setMem {i : Instr} {mode : RmwMode} (f : Byte → Byte)
    (hi : ∀ s, exec i s = modifyMem i f mode s)
    (hst : stores s i = [(effAddr s mode.toMem, f (s.memRead (effAddr s mode.toMem)))])
    (h : SameAt [effAddr s mode.toMem] s (s.setMem m)) :
    nextState i (s.setMem m) = (nextState i s).setMem (m.writeAll (stores s i)) := by
  simp only [nextState, hi, modifyMem_next, effAddr_toMem_setMem, (sameAt_cons.mp h).1, hst]
  rfl

theorem nextState_shiftWith_setMem {i : Instr} {o : ShiftOp} (f : Byte → Bool → Shifted)
    (hi : ∀ s, exec i s = shiftWith i f o s) (hst : stores s i = shiftStores s f o)
    (h : SameAt (shiftReads s o) s (s.setMem m)) :
    nextState i (s.setMem m) = (nextState i s).setMem (m.writeAll (stores s i)) := by
  simp only [nextState, hi, shiftWith_next, shiftValue_setMem h, hst]
  cases o with
  | acc => rfl
  | mem mode =>
    simp only [State.writeBack, effAddr_toMem_setMem]
    rfl

theorem nextState_branch_setMem {i : Instr} {p : Bool × Byte} (h : branchCondition s i = some p) :
    nextState i (s.setMem m) = (nextState i s).setMem m := by
  obtain ⟨cond, b1⟩ := p
  have h' : branchCondition (s.setMem m) i = some (cond, b1) := by
    cases i with
    | bpl | bmi | bvc | bvs | bcc | bcs | bne | beq => exact h
    | _ => cases h
  rw [nextState_branch h, nextState_branch h']
  cases cond <;> rfl

/-- Two pulled bytes as a word (R193): the two cells above SP. -/
theorem pulledWord_setMem (h : SameAt [stackAddr (s.sp + 1), stackAddr (s.sp + 2)] s (s.setMem m)) :
    (s.setMem m).pulledWord = s.pulledWord := by
  have hsp : s.sp + 1 + 1 = s.sp + 2 := BitVec.add_assoc s.sp 1 1
  rw [← hsp, sameAt_cons, sameAt_cons] at h
  obtain ⟨hlo, hhi, -⟩ := h
  exact congrArg₂ wordOf hhi hlo

theorem indirectTarget_of_wrap {s : State} (h : s.params.jmpIndirectPageWrap = true) (ptr : Addr) :
    indirectTarget s ptr = s.memRead16PageWrap ptr := if_pos h

theorem indirectTarget_of_noWrap {s : State} (h : ¬s.params.jmpIndirectPageWrap = true) (ptr : Addr) :
    indirectTarget s ptr = s.memRead16 ptr := if_neg h

/-- The pointer read of JMP indirect, under both values of `JMP_INDIRECT_PAGE_WRAP` (R113). -/
theorem indirectTarget_setMem {ptr : Addr} (h : SameAt (dataReads s (.jmpInd ptr)) s (s.setMem m)) :
    indirectTarget (s.setMem m) ptr = indirectTarget s ptr := by
  obtain ⟨hlo, hrest⟩ := sameAt_cons.mp h
  obtain ⟨hhi, -⟩ := sameAt_cons.mp hrest
  split at hhi
  · next hwrap =>
    rw [indirectTarget_of_wrap hwrap, indirectTarget_of_wrap (s := s.setMem m) hwrap]
    exact congrArg₂ wordOf hhi hlo
  · next hwrap =>
    rw [indirectTarget_of_noWrap hwrap, indirectTarget_of_noWrap (s := s.setMem m) hwrap]
    exact congrArg₂ wordOf hhi hlo

theorem nextState_jmpInd (ptr : Addr) (s : State) :
    nextState (.jmpInd ptr) s = s.finishAt (indirectTarget s ptr) (baseCycles s.params (.jmpInd ptr)) := rfl

theorem nextState_rts (s : State) : nextState .rts s =
    s.pull.pull.finishAt (returnTarget s s.pulledWord) (baseCycles s.params .rts) := rfl

theorem nextState_pla (s : State) :
    nextState .pla s = (s.pull.loadA s.pulled).advance Mode.implied.length (baseCycles s.params .pla) := rfl

theorem nextState_plp (s : State) : nextState .plp s =
    (s.pull.setFlags (Flags.unpack s.pulled)).advance Mode.implied.length (baseCycles s.params .plp) := rfl

/-- An address above page 1 is no stack cell (R25). -/
theorem ne_stackAddr {a : Addr} (ha : 0x0200 ≤ a.toNat) (p : Byte) : a ≠ stackAddr p := by
  rintro rfl
  exact absurd (stackAddr_mem_page p).2 (not_lt.mpr ha)

/-- A push changes no byte outside page 1. -/
theorem State.memRead_push_of_le {a : Addr} (ha : 0x0200 ≤ a.toNat) (s : State) (v : Byte) :
    (s.push v).memRead a = s.memRead a := by
  rw [State.memRead_push, if_neg (ne_stackAddr ha _)]

/-- BRK reads its vector after the three pushes, and finds it as it was before them. -/
theorem State.takeBreak_eq (s : State) : s.takeBreak =
    (((s.pushWord (s.pc + 2)).push s.flags.pack).setFlags { s.flags with i := true }).setPc
      (s.memRead16 breakVector) := by
  have pushed {a : Addr} (ha : 0x0200 ≤ a.toNat) :
      ((s.pushWord (s.pc + 2)).push s.flags.pack).memRead a = s.memRead a := by
    simp only [State.pushWord, State.memRead_push_of_le ha]
  have hvector : s.takeBreak.pc = s.memRead16 breakVector :=
    congrArg₂ wordOf (pushed (by decide)) (pushed (by decide))
  rw [← hvector]
  rfl

theorem State.returnFromBreak_eq (s : State) : s.returnFromBreak =
    (s.pull.pull.pull.setFlags (Flags.unpack s.pulled)).setPc s.pull.pulledWord := rfl

theorem takeBreak_setMem (h : SameAt (dataReads s .brk) s (s.setMem m)) :
    (s.setMem m).takeBreak = s.takeBreak.setMem (m.writeAll (stores s .brk)) := by
  obtain ⟨hlo, hrest⟩ := sameAt_cons.mp h
  obtain ⟨hhi, -⟩ := sameAt_cons.mp hrest
  have hvector : (s.setMem m).memRead16 breakVector = s.memRead16 breakVector := congrArg₂ wordOf hhi hlo
  rw [State.takeBreak_eq, State.takeBreak_eq, hvector]
  rfl

theorem returnFromBreak_setMem (h : SameAt (dataReads s .rti) s (s.setMem m)) :
    (s.setMem m).returnFromBreak = s.returnFromBreak.setMem m := by
  obtain ⟨hflags, hword⟩ := sameAt_cons.mp h
  have hsp₂ : s.sp + 2 = s.sp + 1 + 1 := (BitVec.add_assoc s.sp 1 1).symm
  have hsp₃ : s.sp + 3 = s.sp + 1 + 2 := (BitVec.add_assoc s.sp 1 2).symm
  rw [hsp₂, hsp₃] at hword
  have hpulled : (s.setMem m).pulled = s.pulled := hflags
  have hpc : (s.setMem m).pull.pulledWord = s.pull.pulledWord := pulledWord_setMem (s := s.pull) hword
  rw [State.returnFromBreak_eq, State.returnFromBreak_eq, hpulled, hpc]
  rfl

/-- An instruction run on another memory that agrees on its reads leaves the same state but for memory, and there it
makes the same writes (R59, R66). -/
theorem nextState_setMem {i : Instr} (h : SameAt (dataReads s i) s (s.setMem m)) :
    nextState i (s.setMem m) = (nextState i s).setMem (m.writeAll (stores s i)) := by
  cases i with
  | adc r => exact nextState_readThen_setMem (fun v s => s.addToA v) (fun _ => rfl) (fun _ => rfl) rfl h
  | sbc r => exact nextState_readThen_setMem (fun v s => s.addToA (0xFF ^^^ v)) (fun _ => rfl) (fun _ => rfl) rfl h
  | and r => exact nextState_readThen_setMem (fun v s => s.loadA (s.a &&& v)) (fun _ => rfl) (fun _ => rfl) rfl h
  | ora r => exact nextState_readThen_setMem (fun v s => s.loadA (s.a ||| v)) (fun _ => rfl) (fun _ => rfl) rfl h
  | eor r => exact nextState_readThen_setMem (fun v s => s.loadA (s.a ^^^ v)) (fun _ => rfl) (fun _ => rfl) rfl h
  | bit r =>
    exact nextState_readThen_setMem (fun v s => s.setFlags (s.flags.afterBit s.a v)) (fun _ => rfl)
      (fun _ => rfl) rfl h
  | cmp r =>
    exact nextState_readThen_setMem (fun v s => s.setFlags (s.flags.afterCompare s.a v)) (fun _ => rfl)
      (fun _ => rfl) rfl h
  | cpx r =>
    exact nextState_readThen_setMem (fun v s => s.setFlags (s.flags.afterCompare s.x v)) (fun _ => rfl)
      (fun _ => rfl) rfl h
  | cpy r =>
    exact nextState_readThen_setMem (fun v s => s.setFlags (s.flags.afterCompare s.y v)) (fun _ => rfl)
      (fun _ => rfl) rfl h
  | lda r => exact nextState_readThen_setMem (fun v s => s.loadA v) (fun _ => rfl) (fun _ => rfl) rfl h
  | ldx r => exact nextState_readThen_setMem (fun v s => s.loadX v) (fun _ => rfl) (fun _ => rfl) rfl h
  | ldy r => exact nextState_readThen_setMem (fun v s => s.loadY v) (fun _ => rfl) (fun _ => rfl) rfl h
  | sta => exact nextState_storeByte_setMem State.a (fun _ => rfl) rfl rfl h
  | stx => exact nextState_storeByte_setMem State.x (fun _ => rfl) rfl rfl h
  | sty => exact nextState_storeByte_setMem State.y (fun _ => rfl) rfl rfl h
  | inc => exact nextState_modifyMem_setMem (· + 1) (fun _ => rfl) rfl h
  | dec => exact nextState_modifyMem_setMem (· - 1) (fun _ => rfl) rfl h
  | asl => exact nextState_shiftWith_setMem shiftLeft (fun _ => rfl) rfl h
  | lsr => exact nextState_shiftWith_setMem shiftRight (fun _ => rfl) rfl h
  | rol => exact nextState_shiftWith_setMem rotateLeft (fun _ => rfl) rfl h
  | ror => exact nextState_shiftWith_setMem rotateRight (fun _ => rfl) rfl h
  | bpl | bmi | bvc | bvs | bcc | bcs | bne | beq => exact nextState_branch_setMem rfl
  | jmpInd ptr =>
    rw [nextState_jmpInd, indirectTarget_setMem h]
    rfl
  | pla =>
    rw [nextState_pla, show (s.setMem m).pulled = s.pulled from (sameAt_cons.mp h).1]
    rfl
  | plp =>
    rw [nextState_plp, show (s.setMem m).pulled = s.pulled from (sameAt_cons.mp h).1]
    rfl
  | rts =>
    rw [nextState_rts, pulledWord_setMem h]
    rfl
  | rti =>
    rw [nextState_rti, returnFromBreak_setMem h]
    rfl
  | brk =>
    rw [nextState_brk, takeBreak_setMem h]
    rfl
  | _ => rfl

end

/-- What an instruction leaves in memory: what was there, and its stores. -/
theorem nextState_mem (i : Instr) (s : State) : (nextState i s).mem = s.mem.writeAll (stores s i) :=
  congrArg State.mem (nextState_setMem (m := s.mem) fun _ _ => rfl)

/-- An instruction changes no byte but those it stores to (R59). -/
theorem nextState_memRead_of_notMem {i : Instr} {s : State} {a : Addr} (h : a ∉ storedAddrs s i) :
    (nextState i s).memRead a = s.memRead a := by
  rw [← stores_map_fst] at h
  rw [State.memRead_eq, nextState_mem, Memory.read_writeAll_of_notMem h, State.memRead_eq]

theorem nextState_mem_of_storedAddrs_eq_nil {i : Instr} {s : State} (h : storedAddrs s i = []) :
    (nextState i s).mem = s.mem := by
  rw [← stores_map_fst, List.map_eq_nil_iff] at h
  rw [nextState_mem, h]
  rfl

end Sys2Proof.Machine

open Sys2Proof Sys2Proof.Machine Sys2Proof.Safety

/-- Settles O23: the memory an instruction leaves is the old one with its stores written. -/
theorem memoryFrame : Obligations.MemoryFrame := fun i s =>
  ⟨nextState i s, exec_eq_nextState i s, fun _ => nextState_memRead_of_notMem, nextState_mem_of_storedAddrs_eq_nil⟩
end

