-- ==== Sys2Proof/Proofs/MemoryDependence.lean ====
section
/-! SUPPORT. The family 20_memory: a step, and a run under the launch premise, depend on memory only through the bytes
they read (spec/20_memory.md R59, R66, R71, spec/30_encoding.md R89, spec/70_reset_and_hazards.md R311). -/

namespace Sys2Proof

/-- A decoded instruction depends on as many of the two bytes after the opcode as its mode has (R89). -/
theorem instrOf_congr {op b1 b2 c1 c2 : Byte} (h1 : 1 ≤ (instrOf op b1 b2).mode.operandBytes → c1 = b1)
    (h2 : 2 ≤ (instrOf op b1 b2).mode.operandBytes → c2 = b2) : instrOf op c1 c2 = instrOf op b1 b2 := by
  revert h1 h2
  simp only [instrOf, decodeRow0, decodeRow1, decodeRow2, decodeRow3, decodeRow4, decodeRow5, decodeRow6, decodeRow7,
    decodeRow8, decodeRow9, decodeRowA, decodeRowB, decodeRowC, decodeRowD, decodeRowE, decodeRowF]
  split <;> split <;> simp +contextual [Instr.mode, Mode.operandBytes,
    ReadOp.mode, MemMode.mode, ShiftOp.mode, RmwMode.toMem]

end Sys2Proof

namespace Sys2Proof.Machine

open Sys2Proof.Safety

/-! ### Two states that differ in memory only -/

section
variable {s s' : State} {i : Instr} (hsame : SameButMemory s s') (hreads : SameAt (dataReads s i) s s')
include hsame hreads

/-- `nextState_setMem` for two states. -/
theorem nextState_eq_setMem_of_sameAt : nextState i s' = (nextState i s).setMem (s'.mem.writeAll (stores s i)) := by
  obtain ⟨m, rfl⟩ : ∃ m, s' = s.setMem m := ⟨_, eq_setMem_of_sameButMemory hsame⟩
  exact nextState_setMem hreads

theorem sameButMemory_nextState : SameButMemory (nextState i s) (nextState i s') := by
  rw [nextState_eq_setMem_of_sameAt hsame hreads]
  exact sameButMemory_setMem _ _

/-- The two runs store the same bytes. -/
theorem sameAt_storedAddrs_nextState : SameAt (storedAddrs s i) (nextState i s) (nextState i s') := by
  intro a ha
  rw [← stores_map_fst] at ha
  rw [nextState_eq_setMem_of_sameAt hsame hreads, State.memRead_eq, State.memRead_eq, nextState_mem]
  exact Memory.read_writeAll_of_mem ha _ _

/-- The second run changes no byte but those the first stores to. -/
theorem nextState_memRead_of_notMem_of_sameAt {a : Addr} (ha : a ∉ storedAddrs s i) :
    (nextState i s').memRead a = s'.memRead a := by
  rw [← stores_map_fst] at ha
  rw [nextState_eq_setMem_of_sameAt hsame hreads]
  exact Memory.read_writeAll_of_notMem ha _

end

/-! ### The fetch -/

theorem mem_bytesFrom {k n : Nat} (h : k < n) (a : Addr) : a + BitVec.ofNat 16 k ∈ bytesFrom a n := by
  induction n generalizing k a with
  | zero => cases h
  | succ n ih =>
    cases k with
    | zero => simp [bytesFrom]
    | succ k =>
      have hk : a + BitVec.ofNat 16 (k + 1) = a + 1 + BitVec.ofNat 16 k := by
        rw [Nat.add_comm, BitVec.ofNat_add, ← BitVec.add_assoc]
        rfl
      rw [hk]
      exact List.mem_cons_of_mem _ (ih (Nat.lt_of_succ_lt_succ h) _)

/-- The fetched instruction depends on its own bytes only (R89). -/
theorem fetchInstr_eq_of_sameAt {s s' : State} (hpc : s'.pc = s.pc)
    (h : SameAt (bytesFrom s.pc (fetchInstr s).length) s s') : fetchInstr s' = fetchInstr s := by
  have byte {k : Nat} (hk : k ≤ (fetchInstr s).mode.operandBytes) :
      s'.memRead (s.pc + BitVec.ofNat 16 k) = s.memRead (s.pc + BitVec.ofNat 16 k) :=
    h _ (mem_bytesFrom (by rw [Instr.length, Mode.length]; omega) _)
  have hop : s'.memRead s.pc = s.memRead s.pc := by simpa using byte (Nat.zero_le _)
  rw [fetchInstr, hpc, hop]
  exact instrOf_congr byte byte

/-- The state a step leaves. -/
def stepState (s : State) : State := nextState (fetchInstr s) s

theorem step_eq_stepState (s : State) : step s = .next (stepState s) := step_eq_nextState s

section
variable {s s' : State} (hsame : SameButMemory s s') (hreads : SameAt (stepReads s) s s')
include hsame hreads

theorem stepState_eq_of_sameAt : stepState s' = nextState (fetchInstr s) s' := by
  rw [stepState, fetchInstr_eq_of_sameAt (pc_eq_of_sameButMemory hsame) (sameAt_append.mp hreads).1]

/-- A step depends on memory only through the bytes it reads (R59, R66). -/
theorem sameButMemory_stepState : SameButMemory (stepState s) (stepState s') := by
  rw [stepState_eq_of_sameAt hsame hreads]
  exact sameButMemory_nextState hsame (sameAt_append.mp hreads).2

theorem sameAt_stepWrites_stepState : SameAt (stepWrites s) (stepState s) (stepState s') := by
  rw [stepState_eq_of_sameAt hsame hreads]
  exact sameAt_storedAddrs_nextState hsame (sameAt_append.mp hreads).2

theorem stepState_memRead_of_notMem {a : Addr} (ha : a ∉ stepWrites s) :
    (stepState s).memRead a = s.memRead a ∧ (stepState s').memRead a = s'.memRead a := by
  rw [stepState_eq_of_sameAt hsame hreads]
  exact ⟨nextState_memRead_of_notMem ha,
    nextState_memRead_of_notMem_of_sameAt hsame (sameAt_append.mp hreads).2 ha⟩

/-- Where two memories agree, they agree after the step, and at the bytes it stored as well. -/
theorem sameAt_append_stepState {known : List Addr} (hknown : SameAt known s s') :
    SameAt (stepWrites s ++ known) (stepState s) (stepState s') := by
  have hwrites := sameAt_stepWrites_stepState hsame hreads
  refine sameAt_append.mpr ⟨hwrites, fun a ha => ?_⟩
  by_cases hw : a ∈ stepWrites s
  · exact hwrites a hw
  · obtain ⟨hs, hs'⟩ := stepState_memRead_of_notMem hsame hreads hw
    rw [hs, hs', hknown a ha]

end

/-! ### Runs under the launch premise -/

theorem run_succ (k : Nat) (s : State) :
    Host.Core.run Sys2Proof.core (k + 1) s = Host.Core.run Sys2Proof.core k (stepState s) := by
  have hstep : Sys2Proof.core.step s = .next (stepState s) := step_eq_stepState s
  simp only [Host.Core.run, hstep]

theorem readsKnown_succ {k : Nat} {known : List Addr} {s : State} : readsKnown (k + 1) known s = true ↔
    (∀ a ∈ stepReads s, a ∈ known) ∧ readsKnown k (stepWrites s ++ known) (stepState s) = true := by
  simp [readsKnown, step_eq_stepState]

/-- Under the launch premise two runs that agree on the known bytes end in states that agree on them (R71). -/
theorem run_of_readsKnown {k : Nat} {known : List Addr} {s s' : State} (hk : readsKnown k known s = true)
    (hsame : SameButMemory s s') (hknown : SameAt known s s') :
    ∃ t t' : State, Host.Core.run Sys2Proof.core k s = .next t ∧ Host.Core.run Sys2Proof.core k s' = .next t' ∧
      SameButMemory t t' ∧ SameAt known t t' := by
  induction k generalizing known s s' with
  | zero => exact ⟨s, s', rfl, rfl, hsame, hknown⟩
  | succ k ih =>
    obtain ⟨hsub, hrest⟩ := readsKnown_succ.mp hk
    have hreads : SameAt (stepReads s) s s' := fun a ha => hknown a (hsub a ha)
    obtain ⟨t, t', hrun, hrun', ht, hat⟩ :=
      ih hrest (sameButMemory_stepState hsame hreads) (sameAt_append_stepState hsame hreads hknown)
    exact ⟨t, t', (run_succ k s).trans hrun, (run_succ k s').trans hrun', ht, (sameAt_append.mp hat).2⟩

end Sys2Proof.Machine

open Sys2Proof Sys2Proof.Machine Sys2Proof.Safety

/-- Settles O25: the fetched instruction is the same, and `nextState_setMem` compares its two runs. -/
theorem stepDependsOnItsReads : Obligations.StepDependsOnItsReads := fun s s' hsame hreads =>
  ⟨stepState s, stepState s', step_eq_stepState s, step_eq_stepState s', sameButMemory_stepState hsame hreads,
    sameAt_stepWrites_stepState hsame hreads, fun _ => stepState_memRead_of_notMem hsame hreads⟩

/-- Settles O26, by induction on the number of steps: each step's stores join the known bytes. -/
theorem launchPremiseSuffices : Obligations.LaunchPremiseSuffices := fun _ _ _ _ hk hsame hknown =>
  run_of_readsKnown hk hsame hknown
end

