-- ==== Sys2Proof/Proofs/OpcodeMap.lean ====
section
/-! SUPPORT. The family 30_encoding: what the opcode map fixes by the opcode byte alone, that it has a byte for every
well-formed instruction, and which bytes it leaves unrecognized (spec/30_encoding.md R80 to R89). -/

namespace Sys2Proof

open Sys2Proof.Machine

/-! ### What the opcode byte fixes -/

@[simp] theorem wordBytes_wordOf (hi lo : Byte) : wordBytes (wordOf hi lo) = [lo, hi] := by simp [wordBytes]

/-- The opcode byte fixes the mode and the opcode of what is decoded; its operand bytes are the first of the two bytes
after it, as many as the mode has (R83, R89). -/
theorem instrOf_operands (op b1 b2 : Byte) :
    (instrOf op b1 b2).mode = (instrOf op 0 0).mode ∧ (instrOf op b1 b2).opcode = (instrOf op 0 0).opcode ∧
    (instrOf op b1 b2).operandBytes = [b1, b2].take (instrOf op b1 b2).mode.operandBytes := by
  simp only [instrOf, decodeRow0, decodeRow1, decodeRow2, decodeRow3, decodeRow4, decodeRow5, decodeRow6, decodeRow7,
    decodeRow8, decodeRow9, decodeRowA, decodeRowB, decodeRowC, decodeRowD, decodeRowE, decodeRowF]
  split <;> split <;> simp [Instr.mode, ReadOp.mode, MemMode.mode, ShiftOp.mode, RmwMode.toMem, Mode.operandBytes,
    Instr.opcode, ReadOp.aluOpcode, ReadOp.bitOpcode, ReadOp.indexCompareOpcode, ReadOp.ldxOpcode, ReadOp.ldyOpcode,
    MemMode.staOpcode, MemMode.stxOpcode, MemMode.styOpcode, RmwMode.opcode, ShiftOp.opcode,
    Instr.operandBytes, ReadOp.bytes, MemMode.bytes, ShiftOp.bytes]

/-- How many operand bytes the opcode `op` takes (R89). -/
def operandCount (op : Byte) : Nat := (instrOf op 0 0).mode.operandBytes

theorem operandCount_le (op : Byte) : operandCount op ≤ 2 := Mode.operandBytes_le _

theorem mode_operandBytes_instrOf (op b1 b2 : Byte) : (instrOf op b1 b2).mode.operandBytes = operandCount op :=
  congrArg Mode.operandBytes (instrOf_operands op b1 b2).1

theorem length_instrOf (op b1 b2 : Byte) : (instrOf op b1 b2).length = 1 + operandCount op :=
  congrArg (1 + ·) (mode_operandBytes_instrOf op b1 b2)

theorem operandBytes_instrOf (op b1 b2 : Byte) :
    (instrOf op b1 b2).operandBytes = [b1, b2].take (operandCount op) := by
  rw [← mode_operandBytes_instrOf op b1 b2]
  exact (instrOf_operands op b1 b2).2.2

/-- The decoder and the encoder agree on the opcode byte (R85): a check of the 256 bytes. -/
theorem opcode_instrOf (op b1 b2 : Byte) : (instrOf op b1 b2).opcode = some op := by
  rw [(instrOf_operands op b1 b2).2.1]
  revert op
  decide

theorem instrOf_of_operandCount_zero {op : Byte} (h : operandCount op = 0) (b1 b2 : Byte) :
    instrOf op b1 b2 = instrOf op 0 0 := by
  apply instrOf_congr <;> rw [mode_operandBytes_instrOf] <;> omega

theorem instrOf_of_operandCount_one {op : Byte} (h : operandCount op = 1) (b1 b2 : Byte) :
    instrOf op b1 b2 = instrOf op b1 0 := by
  apply instrOf_congr <;> rw [mode_operandBytes_instrOf]
  · exact fun _ => rfl
  · omega

/-! ### The unrecognized bytes -/

/-- The bytes the map leaves open stand for themselves, whatever follows them (R87): a check of the 256 bytes. -/
theorem instrOf_of_isUnrecognized {op : Byte} (h : isUnrecognized op = true) (b1 b2 : Byte) :
    instrOf op b1 b2 = .unrecognized op := by
  have hmap : ∀ op, isUnrecognized op = true → instrOf op 0 0 = .unrecognized op := by decide
  rw [instrOf_of_operandCount_zero (by rw [operandCount, hmap op h]; rfl), hmap op h]

/-- So they take no operand bytes (R87). -/
theorem operandCount_of_isUnrecognized {op : Byte} (h : isUnrecognized op = true) : operandCount op = 0 := by
  rw [operandCount, instrOf_of_isUnrecognized h]
  rfl

/-- No other byte is decoded to an unrecognized opcode (R87). -/
theorem isUnrecognized_of_instrOf {op b1 b2 x : Byte} (h : instrOf op b1 b2 = .unrecognized x) :
    isUnrecognized op = true := by
  have hx : isUnrecognized x = true := by simpa [h, WellFormed] using wellFormed_instrOf op b1 b2
  have hop : x = op := by simpa [h, Instr.opcode, hx] using opcode_instrOf op b1 b2
  rwa [← hop]

/-! ### Every well-formed instruction is in the map -/

theorem exists_wordOf (w : Addr) : ∃ hi lo, w = wordOf hi lo := ⟨highByte w, lowByte w, (wordOf_high_low w).symm⟩

/-- A read-modify-write instruction is decoded when the map has it at the opcodes of its four modes. -/
theorem exists_instrOf_rmw {mk : RmwMode → Instr} {zp zpX abs absX : Byte} (m : RmwMode)
    (hzp : ∀ b1 b2, instrOf zp b1 b2 = mk (.zp b1)) (hzpX : ∀ b1 b2, instrOf zpX b1 b2 = mk (.zpX b1))
    (habs : ∀ b1 b2, instrOf abs b1 b2 = mk (.abs (wordOf b2 b1)))
    (habsX : ∀ b1 b2, instrOf absX b1 b2 = mk (.absX (wordOf b2 b1))) :
    ∃ b1 b2, instrOf (m.opcode zp zpX abs absX) b1 b2 = mk m := by
  cases m with
  | zp b => exact ⟨b, 0, hzp b 0⟩
  | zpX b => exact ⟨b, 0, hzpX b 0⟩
  | abs w =>
    obtain ⟨hi, lo, rfl⟩ := exists_wordOf w
    exact ⟨lo, hi, habs lo hi⟩
  | absX w =>
    obtain ⟨hi, lo, rfl⟩ := exists_wordOf w
    exact ⟨lo, hi, habsX lo hi⟩

/-- An instruction that the encoder has an opcode byte for is decoded from that byte (R85). -/
theorem exists_instrOf_of_opcode {i : Instr} {op : Byte} (h : i.opcode = some op) :
    ∃ b1 b2, instrOf op b1 b2 = i := by
  cases i with
  | adc r | sbc r | and r | ora r | eor r | bit r | lda r | ldx r | ldy r | cmp r | cpx r | cpy r =>
    cases r with
    | imm b => cases h <;> exact ⟨b, 0, rfl⟩
    | mem m =>
      cases m with
      | zp b | zpX b | zpY b | indX b | indY b => cases h <;> exact ⟨b, 0, rfl⟩
      | abs w | absX w | absY w =>
        obtain ⟨hi, lo, rfl⟩ := exists_wordOf w
        cases h <;> exact ⟨lo, hi, rfl⟩
  | sta m | stx m | sty m =>
    cases m with
    | zp b | zpX b | zpY b | indX b | indY b => cases h <;> exact ⟨b, 0, rfl⟩
    | abs w | absX w | absY w =>
      obtain ⟨hi, lo, rfl⟩ := exists_wordOf w
      cases h <;> exact ⟨lo, hi, rfl⟩
  | asl o | lsr o | rol o | ror o =>
    cases o with
    | acc => cases h; exact ⟨0, 0, rfl⟩
    | mem m =>
      cases h
      refine exists_instrOf_rmw (mk := _ ∘ ShiftOp.mem) m ?_ ?_ ?_ ?_ <;> exact fun _ _ => rfl
  | inc m | dec m =>
    cases h
    refine exists_instrOf_rmw m ?_ ?_ ?_ ?_ <;> exact fun _ _ => rfl
  | bpl b | bmi b | bvc b | bvs b | bcc b | bcs b | bne b | beq b => cases h; exact ⟨b, 0, rfl⟩
  | jmp w | jmpInd w | jsr w =>
    obtain ⟨hi, lo, rfl⟩ := exists_wordOf w
    cases h; exact ⟨lo, hi, rfl⟩
  | unrecognized x =>
    obtain ⟨hx, rfl⟩ : isUnrecognized x = true ∧ x = op := by simpa [Instr.opcode] using h
    exact ⟨0, 0, instrOf_of_isUnrecognized hx 0 0⟩
  | _ => cases h; exact ⟨0, 0, rfl⟩

/-- The encoder has an opcode byte for every well-formed instruction: its operand form is one of the map's (R84, R85). -/
theorem opcode_isSome_of_wellFormed {i : Instr} (h : WellFormed i = true) : i.opcode.isSome = true := by
  open Laws.EncodeLength in
  cases i with
  | adc r | sbc r | and r | ora r | eor r | lda r | cmp r => exact aluOpcode_isSome r _ _ _ _ _ _ _ _ h
  | bit r => exact bitOpcode_isSome r _ _ h
  | cpx r | cpy r => exact indexCompareOpcode_isSome r _ _ _ h
  | ldx r => exact ldxOpcode_isSome r _ _ _ _ _ h
  | ldy r => exact ldyOpcode_isSome r _ _ _ _ _ h
  | sta m => exact staOpcode_isSome m _ _ _ _ _ _ _ h
  | stx m => exact stxOpcode_isSome m _ _ _ h
  | sty m => exact styOpcode_isSome m _ _ _ h
  | unrecognized op => exact (unrecognized op h).1
  | _ => rfl

/-- Every well-formed instruction is decoded from some opcode and operand bytes. -/
theorem exists_instrOf_of_wellFormed {i : Instr} (h : WellFormed i = true) : ∃ op b1 b2, instrOf op b1 b2 = i := by
  obtain ⟨op, hop⟩ := Option.isSome_iff_exists.mp (opcode_isSome_of_wellFormed h)
  exact ⟨op, exists_instrOf_of_opcode hop⟩

end Sys2Proof
end

