-- ==== Sys2Proof/Proofs/Encoding.lean ====
section
/-! SUPPORT. The family 30_encoding: decoder and encoder are inverse to each other, the length of an instruction, and
what an unrecognized opcode does (spec/30_encoding.md R80 to R90, spec/45_transfer_flag_nop.md R225). -/

namespace Sys2Proof

open Sys2Proof.Machine Sys2Proof.Safety

/-! ### The round trip -/

/-- The encoding of a decoded instruction: the opcode byte, and as many of the bytes after it as the opcode takes. -/
theorem encode_instrOf (op b1 b2 : Byte) : encode (instrOf op b1 b2) = op :: [b1, b2].take (operandCount op) := by
  rw [encode, opcode_instrOf, operandBytes_instrOf]

/-- The decoder takes those bytes and leaves what follows them. -/
theorem decode_take_operandCount (op b1 b2 : Byte) (rest : List Byte) :
    decode (op :: ([b1, b2].take (operandCount op) ++ rest)) = .ok (instrOf op b1 b2, rest) := by
  obtain h | h | h : operandCount op = 0 ∨ operandCount op = 1 ∨ operandCount op = 2 := by
    have := operandCount_le op
    omega
  · rw [h, instrOf_of_operandCount_zero h]
    exact decode_zero rest h
  · rw [h, instrOf_of_operandCount_one h]
    exact decode_one b1 rest h
  · rw [h]
    exact decode_two b1 b2 rest h

/-- Every opcode byte with its operand bytes is the encoding of what the map has there, both ways (R80 to R85). -/
theorem encodes_instrOf (op b1 b2 : Byte) :
    Encodes (instrOf op b1 b2) (op :: [b1, b2].take (operandCount op)) :=
  ⟨encode_instrOf op b1 b2, decode_take_operandCount op b1 b2⟩

/-! ### The length -/

/-- The first at most two elements of a long enough list, as those of a list of two. -/
theorem exists_take_eq {n : Nat} {l : List Byte} (hn : n ≤ 2) (h : n ≤ l.length) :
    ∃ b1 b2, l.take n = [b1, b2].take n := by
  rcases l with _ | ⟨b1, _ | ⟨b2, tail⟩⟩
  · exact ⟨0, 0, (List.take_append_of_le_length (l₂ := [0, 0]) h).symm⟩
  · exact ⟨b1, 0, (List.take_append_of_le_length (l₂ := [0]) h).symm⟩
  · exact ⟨b1, b2, List.take_append_of_le_length (l₁ := [b1, b2]) (l₂ := tail) hn⟩

/-- With enough bytes after the opcode, the decoder takes as many as the opcode says (R89). -/
theorem exists_decode_cons {op : Byte} {rest : List Byte} (h : operandCount op ≤ rest.length) :
    ∃ b1 b2, rest.take (operandCount op) = [b1, b2].take (operandCount op) ∧
      decode (op :: rest) = .ok (instrOf op b1 b2, rest.drop (operandCount op)) := by
  obtain ⟨b1, b2, htake⟩ := exists_take_eq (operandCount_le op) h
  refine ⟨b1, b2, htake, ?_⟩
  rw [← decode_take_operandCount op b1 b2, ← htake, List.take_append_drop]

/-- With fewer, it refuses (log entry 16). -/
theorem decode_truncated {op : Byte} {rest : List Byte} (h : rest.length < operandCount op) :
    decode (op :: rest) = .error (.truncated op) := by
  rw [operandCount] at h
  simp only [decode]
  split
  · omega
  · rw [List.length_cons] at h
    omega
  · rw [List.length_cons, List.length_cons] at h
    omega
  · rfl

/-! ### The fetched bytes -/

/-- The bytes of the fetched instruction are those at PC and after it (R82). -/
theorem map_memRead_bytesFrom (s : State) {n : Nat} (h : n ≤ 2) : (bytesFrom s.pc (1 + n)).map s.memRead =
    s.memRead s.pc :: [s.memRead (s.pc + 1), s.memRead (s.pc + 2)].take n := by
  obtain rfl | rfl | rfl : n = 0 ∨ n = 1 ∨ n = 2 := by omega
  · rfl
  · rfl
  · simp [bytesFrom, BitVec.add_assoc]

/-! ### The effect of an unrecognized opcode -/

/-- An unrecognized opcode does nothing but advance PC by its one byte, cost two cycles and log one event (R225). -/
theorem exec_unrecognized (op : Byte) (s : State) :
    exec (.unrecognized op) s = .next { s with pc := s.pc + 1, cycles := 2, log := s.log ++ [⟨s.pc, op⟩] } := rfl

theorem step_of_isUnrecognized {s : State} (h : isUnrecognized (s.memRead s.pc) = true) :
    step s = .next { s with pc := s.pc + 1, cycles := 2, log := s.log ++ [⟨s.pc, s.memRead s.pc⟩] } := by
  rw [step, fetchInstr, instrOf_of_isUnrecognized h, exec_unrecognized]

theorem encodes_unrecognized {op : Byte} (h : isUnrecognized op = true) : Encodes (.unrecognized op) [op] := by
  simpa [operandCount_of_isUnrecognized h, instrOf_of_isUnrecognized h] using encodes_instrOf op 0 0

end Sys2Proof

open Sys2Proof Sys2Proof.Machine Sys2Proof.Safety

/-- Settles O1: a well-formed instruction stands somewhere in the opcode map, and there the two directions agree. -/
theorem decodeOfEncode : Obligations.DecodeOfEncode := by
  intro i rest hi
  obtain ⟨op, b1, b2, rfl⟩ := exists_instrOf_of_wellFormed hi
  obtain ⟨hencode, hdecode⟩ := encodes_instrOf op b1 b2
  rw [hencode]
  exact hdecode rest

/-- Settles O2: the decoder answers only when the opcode has its operand bytes, and it answers what the map has there. -/
theorem encodeOfDecode : Obligations.EncodeOfDecode := by
  intro bytes i rest h
  cases bytes with
  | nil => cases h
  | cons op tail =>
    rcases Nat.lt_or_ge tail.length (operandCount op) with hshort | hlong
    · rw [decode_truncated hshort] at h
      cases h
    · obtain ⟨b1, b2, htake, hdecode⟩ := exists_decode_cons hlong
      rw [hdecode] at h
      cases h
      refine ⟨wellFormed_instrOf op b1 b2, ?_⟩
      rw [encode_instrOf, ← htake, List.cons_append, List.take_append_drop]

/-- Settles O3: the length is the mode's, and the opcode byte fixes the mode. -/
theorem lengthFromOpcodeAlone : Obligations.LengthFromOpcodeAlone := by
  intro op
  refine ⟨operandCount op, operandCount_le op, operandCount_of_isUnrecognized,
    fun rest => ⟨fun h => ?_, decode_truncated⟩⟩
  obtain ⟨b1, b2, -, hdecode⟩ := exists_decode_cons h
  exact ⟨_, hdecode, length_instrOf op b1 b2⟩

/-- Settles O4: the listed bytes are the map's open places, a check of the 256 bytes. -/
theorem unrecognizedOpcodes : Obligations.UnrecognizedOpcodes := by
  unfold Obligations.UnrecognizedOpcodes
  intro listed
  have hlisted : ∀ op, op ∈ listed ↔ isUnrecognized op = true := by decide
  exact ⟨fun op h => encodes_unrecognized ((hlisted op).mp h), fun s h => step_of_isUnrecognized ((hlisted _).mp h),
    fun op h b1 b2 x hx => h ((hlisted op).mpr (isUnrecognized_of_instrOf hx)), exec_unrecognized⟩

/-- Settles O8: what the fetch decodes is encoded by the bytes it was decoded from. -/
theorem fetchedBytesAreEncoding : Obligations.FetchedBytesAreEncoding := by
  intro s
  rw [fetchInstr, encode_instrOf, length_instrOf, map_memRead_bytesFrom s (operandCount_le _)]

/-- Settles O5: each word is its opcode byte and the operand bytes that opcode takes. -/
theorem sampleWords : Obligations.SampleWords :=
  ⟨encodes_instrOf 0x69 0x50 0, encodes_instrOf 0xBD 0x00 0x02, encodes_instrOf 0x6C 0xFF 0x02,
    encodes_instrOf 0xD0 0xF8 0, encodes_instrOf 0x99 0x00 0x04, encodes_instrOf 0x0A 0 0, encodes_instrOf 0x00 0 0⟩
end

