-- ==== Sys2Proof/Proofs/Addressing.lean ====
section
/-! SUPPORT. The family 40_step_and_addressing: the resolver of the memory modes as numbers
(spec/40_step_and_addressing.md R105 to R112), and the page-cross signal (R115). -/

namespace Sys2Proof.Machine

open Sys2Proof.Safety

/-! ### Indexed accesses -/

/-- The page-cross signal as numbers (R115). -/
theorem pageCrossed_iff (base : Addr) (index : Byte) :
    pageCrossed base index = true ↔ base.toNat % 256 + index.toNat > 0xFF := by
  rw [pageCrossed, decide_eq_true_iff, toNat_and_offsetMask]

/-- An index is added mod 65536 (R109, R110, R112). -/
theorem indexed_ea_toNat (base : Addr) (index : Byte) :
    (indexed base index).ea.toNat = (base.toNat + index.toNat) % 65536 := by
  rw [indexed, BitVec.toNat_add, zext16_toNat]

/-- Two addresses lie on one page when their high bytes are the same number. -/
theorem and_pageMask_eq_iff (a b : Addr) : a &&& 0xFF00 = b &&& 0xFF00 ↔ a.toNat / 256 = b.toNat / 256 := by
  rw [← Addr.toNat_inj, toNat_and_pageMask, toNat_and_pageMask]
  omega

/-- Adding an index to a base changes its page exactly when the low byte's sum passes 0xFF, mod 65536 too: the index
is less than a page, so the high byte rises by at most 1. -/
theorem indexed_page_ne_iff (base : Addr) (index : Byte) :
    base &&& 0xFF00 ≠ (indexed base index).ea &&& 0xFF00 ↔ base.toNat % 256 + index.toNat > 0xFF := by
  have hbase := base.isLt
  have hindex := index.isLt
  rw [Ne, and_pageMask_eq_iff, indexed_ea_toNat]
  omega

/-! ### Zero-page and indirect modes -/

/-- A zero-page address with an index added stays in page 0 (R106, R107). -/
theorem zext16_add_toNat (b1 index : Byte) : (zext16 (b1 + index)).toNat = (b1.toNat + index.toNat) % 256 := by
  rw [zext16_toNat, BitVec.toNat_add]

/-- A pointer in page 0 as a number (R56). -/
theorem memRead16ZP_toNat (s : State) (z : Byte) :
    (s.memRead16ZP z).toNat = byteAt s z.toNat + 256 * byteAt s ((z.toNat + 1) % 256) := by
  obtain ⟨-, hzp, -⟩ := wordReads s 0 z
  exact hzp

/-- The pointer of `($zz,X)` as a number: the index is added to its address, mod 256 (R111). -/
theorem memRead16ZP_indexedPointer_toNat (s : State) (b1 : Byte) :
    (s.memRead16ZP (s.indexedPointer b1)).toNat =
      byteAt s ((b1.toNat + s.x.toNat) % 256) + 256 * byteAt s ((b1.toNat + s.x.toNat + 1) % 256) := by
  have hz : (s.indexedPointer b1).toNat = (b1.toNat + s.x.toNat) % 256 := BitVec.toNat_add _ _
  rw [memRead16ZP_toNat, hz, Nat.mod_add_mod]

/-! ### Which instructions use `zeropage_y` -/

/-- The one memory operand in `zeropage_y` (R107). -/
theorem memMode_eq_zpY {m : MemMode} (h : m.mode = .zeropageY) : ∃ b1, m = .zpY b1 := by
  cases m with
  | zpY b1 => exact ⟨b1, rfl⟩
  | _ => cases h

/-- The one read operand in `zeropage_y` (R107). -/
theorem readOp_eq_zpY {r : ReadOp} (h : r.mode = .zeropageY) : ∃ b1, r = .mem (.zpY b1) := by
  cases r with
  | imm => cases h
  | mem m =>
    obtain ⟨b1, rfl⟩ := memMode_eq_zpY h
    exact ⟨b1, rfl⟩

theorem rmwMode_ne_zeropageY (m : RmwMode) : m.toMem.mode ≠ .zeropageY := by
  cases m <;> nofun

theorem shiftOp_ne_zeropageY (o : ShiftOp) : o.mode ≠ .zeropageY := by
  cases o with
  | acc => nofun
  | mem m => exact rmwMode_ne_zeropageY m

/-- Only LDX and STX use `zeropage_y` (R107): the operand forms of the others leave it out. -/
theorem ldx_or_stx_of_zeropageY {i : Instr} (hi : WellFormed i = true) (h : i.mode = .zeropageY) :
    (∃ r, i = .ldx r) ∨ ∃ m, i = .stx m := by
  cases i with
  | ldx r => exact .inl ⟨r, rfl⟩
  | stx m => exact .inr ⟨m, rfl⟩
  | adc | sbc | and | ora | eor | bit | lda | ldy | cmp | cpx | cpy =>
    obtain ⟨b1, rfl⟩ := readOp_eq_zpY h
    cases hi
  | sta | sty =>
    obtain ⟨b1, rfl⟩ := memMode_eq_zpY h
    cases hi
  | asl o | lsr o | rol o | ror o => exact absurd h (shiftOp_ne_zeropageY o)
  | inc m | dec m => exact absurd h (rmwMode_ne_zeropageY m)
  | _ => cases h

end Sys2Proof.Machine

open Sys2Proof Sys2Proof.Machine Sys2Proof.Safety

/-- Settles O13: a zero-page address is an operand byte, or a sum mod 256. -/
theorem zeroPageModes : Obligations.ZeroPageModes := by
  refine ⟨fun s b1 => ?_, fun i => ldx_or_stx_of_zeropageY⟩
  exact ⟨rfl, rfl, rfl, zext16_toNat b1, zext16_add_toNat b1 s.x, zext16_add_toNat b1 s.y, rfl, rfl, rfl⟩

/-- Settles O14: both index registers by the rules of one indexed access. -/
theorem absoluteIndexedModes : Obligations.AbsoluteIndexedModes := by
  intro s b1 b2 base
  have hbase : base.toNat = b1.toNat + 256 * b2.toNat := by
    rw [wordOf_toNat]
    omega
  have hbytes : wordBytes base = [b1, b2] := wordBytes_wordOf b2 b1
  exact ⟨hbase, hbytes, hbytes, hbytes, rfl, rfl, indexed_ea_toNat base s.x, pageCrossed_iff base s.x,
    indexed_ea_toNat base s.y, pageCrossed_iff base s.y⟩

/-- Settles O15: a pointer is read inside page 0, and `($zz),Y` is an indexed access from it. -/
theorem indirectModes : Obligations.IndirectModes := by
  intro s b1 p base
  have hbase : (s.memRead16ZP b1).toNat = base := memRead16ZP_toNat s b1
  refine ⟨rfl, rfl, memRead16ZP_indexedPointer_toNat s b1, rfl, ?_, ?_⟩
  · rw [← hbase]
    exact indexed_ea_toNat _ s.y
  · rw [← hbase]
    exact pageCrossed_iff _ s.y

/-- Settles O16: both sides say that the low byte's sum passes 0xFF. -/
theorem pageCrossIsHighByteChange : Obligations.PageCrossIsHighByteChange := fun base index =>
  ⟨pageCrossed_iff base index, (pageCrossed_iff base index).trans (indexed_page_ne_iff base index).symm⟩
end

