-- ==== Sys2Proof/Proofs/Step.lean ====
section
/-! SUPPORT. The family 40_step_and_addressing: the step runs the instruction that stands at PC
(spec/40_step_and_addressing.md R100, spec/30_encoding.md R82), and where PC goes (R120). -/

namespace Sys2Proof.Machine

open Sys2Proof.Safety

/-! ### The fetch and the decoder -/

/-- The decoder finds the fetched instruction at the start of the fetched bytes (R100). -/
theorem decode_fetchBytes (s : State) : decode (fetchBytes s) = .ok (fetchInstr s,
    [s.memRead (s.pc + 1), s.memRead (s.pc + 2)].drop (operandCount (s.memRead s.pc))) := by
  rw [fetchInstr, ← decode_take_operandCount, List.take_append_drop, fetchBytes]

/-- The fetched bytes begin with as many bytes from PC on as any one instruction has (R82). -/
theorem exists_fetchBytes_eq_append (s : State) (i : Instr) :
    ∃ rest, fetchBytes s = (bytesFrom s.pc i.length).map s.memRead ++ rest := by
  refine ⟨[s.memRead (s.pc + 1), s.memRead (s.pc + 2)].drop i.mode.operandBytes, ?_⟩
  rw [Instr.length, Mode.length, map_memRead_bytesFrom s (Mode.operandBytes_le _), List.cons_append,
    List.take_append_drop, fetchBytes]

/-! ### Where PC goes -/

@[simp] theorem State.writeBack_pc (s : State) (r : Byte) (o : ShiftOp) : (s.writeBack r o).pc = s.pc := by
  cases o <;> rfl

/-- An instruction that is no control transfer leaves PC past itself (R120). -/
theorem nextState_pc {i : Instr} (s : State) (h : controlTransfer i = false) :
    (nextState i s).pc = s.pc + BitVec.ofNat 16 i.length := by
  cases i with
  | jmp | jmpInd | jsr | rts | rti | brk => cases h
  | bpl | bmi | bvc | bvs | bcc | bcs | bne | beq => cases h
  | asl o | lsr o | rol o | ror o => exact congrArg (· + _) (s.writeBack_pc _ o)
  | _ => rfl

/-- A branch goes to its target or to the next instruction (R114, R173). -/
theorem nextState_branch_pc {i : Instr} {s : State} {cond : Bool} {b1 : Byte}
    (h : branchCondition s i = some (cond, b1)) :
    (nextState i s).pc = if cond then branchTarget s b1 else branchNext s := by
  rw [nextState_branch h]
  cases cond <;> rfl

end Sys2Proof.Machine

open Sys2Proof Sys2Proof.Machine Sys2Proof.Safety

/-- Settles O6: the decoder and the fetch find the same instruction. -/
theorem stepRunsDecodedInstruction : Obligations.StepRunsDecodedInstruction := by
  intro s i rest h
  rw [decode_fetchBytes] at h
  cases h
  exact ⟨wellFormed_fetchInstr s, rfl⟩

/-- Settles O7: the fetched bytes begin with the encoding, so they decode to the instruction. -/
theorem stepRunsEncodedInstruction : Obligations.StepRunsEncodedInstruction := by
  intro s i hi hbytes
  obtain ⟨rest, hfetch⟩ := exists_fetchBytes_eq_append s i
  have hdecode : decode (fetchBytes s) = .ok (i, rest) := by
    rw [hfetch, hbytes]
    exact decodeOfEncode i rest hi
  exact (stepRunsDecodedInstruction s i rest hdecode).2

/-- Settles O10, by `nextState_pc` and `nextState_branch_pc`. -/
theorem pcAdvance : Obligations.PcAdvance := fun i s =>
  ⟨nextState i s, exec_eq_nextState i s, nextState_pc s, fun _ _ => nextState_branch_pc⟩
end

