-- ==== Sys2Proof/Proofs/OperandEncodings.lean ====
section
/-! SUPPORT. The encodings of the read-class instructions, as the rules' Encoding lines give them
(spec/30_encoding.md R80 to R85). -/

namespace Sys2Proof

open Sys2Proof.Machine Sys2Proof.Safety

/-- An instruction with an opcode byte is encoded by that byte and its operand bytes (R82, R85). -/
theorem encodes_of_opcode {i : Instr} {op : Byte} (h : i.opcode = some op) : Encodes i (op :: i.operandBytes) := by
  obtain ⟨b1, b2, rfl⟩ := exists_instrOf_of_opcode h
  rw [operandBytes_instrOf]
  exact encodes_instrOf op b1 b2

/-- A read-class instruction with the eight modes of ADC is encoded as its Encoding line says (R131 to R135). -/
theorem aluEncoding_of_opcode {mk : ReadOp → Instr} {imm zp zpX abs absX absY indX indY : Byte}
    (hop : ∀ r, (mk r).opcode = r.aluOpcode imm zp zpX abs absX absY indX indY)
    (hbytes : ∀ r, (mk r).operandBytes = r.bytes) : AluEncoding mk imm zp zpX abs absX absY indX indY := by
  have form {r : ReadOp} {op : Byte} (h : r.aluOpcode imm zp zpX abs absX absY indX indY = some op) :
      Encodes (mk r) (op :: r.bytes) := hbytes r ▸ encodes_of_opcode ((hop r).trans h)
  intro b lo hi
  rw [← wordBytes_wordOf hi lo]
  exact ⟨form rfl, form rfl, form rfl, form rfl, form rfl, form rfl, form rfl, form rfl⟩

end Sys2Proof
end

