-- ==== Sys2Proof/Proofs/Alu.lean ====
section
/-! SUPPORT. The family 41_alu: the add of R131 as a number, its carry and overflow, the complement that SBC adds
(R132, R137), and the bitwise operations (spec/41_alu.md R131 to R137). -/

namespace Sys2Proof.Machine

/-! ### The next states -/

theorem exec_adc (r : ReadOp) (s : State) : exec (.adc r) s =
    .next ((s.addToA (readValue s r)).advance r.mode.length (readCost s (.adc r) r)) := rfl

/-- SBC adds the complement `0xFF ^ M = ~M` (R132). -/
theorem exec_sbc (r : ReadOp) (s : State) : exec (.sbc r) s =
    .next ((s.addToA (~~~readValue s r)).advance r.mode.length (readCost s (.sbc r) r)) := rfl

theorem exec_and (r : ReadOp) (s : State) : exec (.and r) s =
    .next ((s.loadA (s.a &&& readValue s r)).advance r.mode.length (readCost s (.and r) r)) := rfl

theorem exec_ora (r : ReadOp) (s : State) : exec (.ora r) s =
    .next ((s.loadA (s.a ||| readValue s r)).advance r.mode.length (readCost s (.ora r) r)) := rfl

theorem exec_eor (r : ReadOp) (s : State) : exec (.eor r) s =
    .next ((s.loadA (s.a ^^^ readValue s r)).advance r.mode.length (readCost s (.eor r) r)) := rfl

theorem exec_bit (r : ReadOp) (s : State) : exec (.bit r) s =
    .next ((s.setFlags (s.flags.afterBit s.a (readValue s r))).advance r.mode.length (readCost s (.bit r) r)) := rfl

/-! ### The sign of a byte -/

/-- Bit 7 is set on the upper half of the bytes. -/
theorem Byte.getElem_seven (b : Byte) : b[7] = decide (128 ≤ b.toNat) := b.getLsbD_last

theorem Byte.toInt_not (b : Byte) : (~~~b).toInt = -1 - b.toInt := by
  have hb := b.isLt
  rw [BitVec.toInt_eq_toNat_cond, BitVec.toInt_eq_toNat_cond, BitVec.toNat_not]
  split <;> split <;> omega

/-! ### The add of R131 -/

/-- The carry is bit 8 of the exact sum (R131). -/
theorem addByte_toNat_add_addCarry (a m : Byte) (c : Bool) :
    (addByte a m c).toNat + 256 * (addCarry a m c).toNat = a.toNat + m.toNat + c.toNat := by
  have hc := c.toNat_le
  have ha := a.isLt
  have hm := m.isLt
  rw [addByte, addCarry, BitVec.toNat_ofNat, Bool.toNat, Bool.cond_decide, ← addSum]
  have hsum : addSum a m c < 512 := by rw [addSum]; omega
  split <;> omega

/-- The spec's mask of bit 7 (R131), as the signs of the operands and of the result. -/
theorem addOverflow_iff (a m : Byte) (c : Bool) :
    addOverflow a m c = true ↔ a[7] = m[7] ∧ (addByte a m c)[7] ≠ a[7] := by
  have hsum : (addByte a m c)[7] = (addSum a m c).testBit 7 := by
    rw [addByte, ← BitVec.getLsbD_eq_getElem, BitVec.getLsbD_ofNat]
    rfl
  rw [addOverflow, show (0x80 : Nat) = 2 ^ 7 from rfl, Nat.and_two_pow, Nat.testBit_and, Nat.testBit_xor,
    Nat.testBit_xor, hsum, BitVec.getElem_eq_testBit_toNat, BitVec.getElem_eq_testBit_toNat]
  cases a.toNat.testBit 7 <;> cases m.toNat.testBit 7 <;> cases (addSum a m c).testBit 7 <;> decide

/-- V is signed overflow (R131). -/
theorem addOverflow_iff_toInt (a m : Byte) (c : Bool) : addOverflow a m c = true ↔
    a.toInt + m.toInt + c.toNat < -128 ∨ 127 < a.toInt + m.toInt + c.toNat := by
  have hsum := addByte_toNat_add_addCarry a m c
  have hc := c.toNat_le
  have ha := a.isLt
  have hm := m.isLt
  have hr := (addByte a m c).isLt
  simp only [addOverflow_iff, ne_eq, Byte.getElem_seven, decide_eq_decide, BitVec.toInt_eq_toNat_cond]
  split <;> split <;> omega

theorem addByte_eq_add (a m : Byte) (c : Bool) : addByte a m c = a + m + BitVec.ofNat 8 c.toNat := by
  simp [addByte, addSum, BitVec.ofNat_add]

/-! ### The subtraction of R132 -/

theorem addByte_not_toNat (a m : Byte) (c : Bool) :
    ((addByte a (~~~m) c).toNat : Int) = ((a.toNat : Int) - m.toNat - (1 - c.toNat)) % 256 := by
  have hsum := addByte_toNat_add_addCarry a (~~~m) c
  rw [BitVec.toNat_not] at hsum
  have hm := m.isLt
  have hr := (addByte a (~~~m) c).isLt
  omega

theorem addCarry_not_iff (a m : Byte) (c : Bool) :
    addCarry a (~~~m) c = true ↔ (a.toNat : Int) ≥ m.toNat + (1 - c.toNat) := by
  have hm := m.isLt
  rw [addCarry, decide_eq_true_iff, addSum, BitVec.toNat_not]
  omega

theorem addOverflow_not_iff_toInt (a m : Byte) (c : Bool) : addOverflow a (~~~m) c = true ↔
    a.toInt - m.toInt - (1 - c.toNat) < -128 ∨ 127 < a.toInt - m.toInt - (1 - c.toNat) := by
  rw [addOverflow_iff_toInt, Byte.toInt_not]
  omega

/-- Adding a byte and then its complement adds `c + c' - 1` (R137). -/
theorem addByte_not_addByte (a b : Byte) (c c' : Bool) :
    addByte (addByte a b c) (~~~b) c' = if c' ≠ c then a else if c then a + 1 else a - 1 := by
  have hnot : ~~~b = -b - 1 := BitVec.not_eq_neg_add b
  have hsum : addByte (addByte a b c) (~~~b) c' = a + BitVec.ofNat 8 c.toNat + BitVec.ofNat 8 c'.toNat - 1 := by
    rw [addByte_eq_add, addByte_eq_add, hnot]
    ring
  rw [hsum]
  cases c <;> cases c' <;> simp

end Sys2Proof.Machine

open Sys2Proof Sys2Proof.Machine Sys2Proof.Safety

/-- Settles O31: the carry by `addByte_toNat_add_addCarry`, V by `addOverflow_iff`. -/
theorem addWithCarry : Obligations.AddWithCarry :=
  ⟨aluEncoding_of_opcode (fun _ => rfl) (fun _ => rfl), fun r s =>
    ⟨_, _, _, exec_adc r s, addByte_toNat_add_addCarry _ _ _, addOverflow_iff _ _ _⟩⟩

/-- Settles O32: ADC's laws at the complement of `M`. -/
theorem subtractWithCarry : Obligations.SubtractWithCarry := by
  refine ⟨aluEncoding_of_opcode (fun _ => rfl) (fun _ => rfl), fun r s => ⟨_, _, _, exec_sbc r s, ?_, ?_⟩⟩
  · simpa using addByte_toNat_add_addCarry s.a (~~~readValue s r) s.flags.c
  · simpa [Bool.eq_not] using addOverflow_iff s.a (~~~readValue s r) s.flags.c

/-- Settles O33: V of both by their signed readings, SBC's result and carry as a difference with borrow. -/
theorem borrowAndOverflow : Obligations.BorrowAndOverflow := fun r s =>
  ⟨_, _, exec_adc r s, exec_sbc r s, addOverflow_iff_toInt _ _ _, addByte_not_toNat _ _ _, addCarry_not_iff _ _ _,
    addOverflow_not_iff_toInt _ _ _⟩

/-- Settles O34, by `addByte_not_addByte` at the carry `1 - c` and at the one ADC leaves. -/
theorem complementIdentity : Obligations.ComplementIdentity := by
  intro b s
  refine ⟨_, _, _, exec_adc _ s, exec_sbc _ _, ?_, exec_sbc _ _, addByte_not_addByte s.a b s.flags.c _⟩
  exact (addByte_not_addByte s.a b s.flags.c _).trans (if_pos (Bool.not_ne_self _))

/-- Settles O35: the next states, and the bits of the bitwise operations. -/
theorem logicalOperations : Obligations.LogicalOperations :=
  ⟨aluEncoding_of_opcode (fun _ => rfl) (fun _ => rfl), aluEncoding_of_opcode (fun _ => rfl) (fun _ => rfl),
    aluEncoding_of_opcode (fun _ => rfl) (fun _ => rfl), fun r s =>
    ⟨_, _, _, exec_and r s, exec_ora r s, exec_eor r s, fun _ =>
      ⟨BitVec.getLsbD_and, BitVec.getLsbD_or, BitVec.getLsbD_xor⟩⟩⟩

/-- Settles O36: the two encodings, and the next state. -/
theorem bitTest : Obligations.BitTest := by
  refine ⟨fun b lo hi => ⟨encodes_of_opcode rfl, ?_⟩, fun r s => ⟨_, exec_bit r s, beq_iff_eq⟩⟩
  rw [← wordBytes_wordOf hi lo]
  exact encodes_of_opcode rfl
end

