-- ==== Sys2Proof/Proofs/RmwEncodings.lean ====
section
/-! SUPPORT. The encodings of the read-modify-write instructions, as the rules' Encoding lines give them
(spec/42_shift_incdec.md R150 to R155, spec/30_encoding.md R80 to R85). -/

namespace Sys2Proof

open Sys2Proof.Machine Sys2Proof.Safety

/-- INC and DEC are encoded as their Encoding lines say: the four memory modes (R154, R155). -/
theorem rmwEncoding_of_opcode {mk : RmwMode → Instr} {zp zpX abs absX : Byte}
    (hop : ∀ m, (mk m).opcode = some (m.opcode zp zpX abs absX))
    (hbytes : ∀ m, (mk m).operandBytes = m.toMem.bytes) : RmwEncoding mk zp zpX abs absX := by
  have form (m : RmwMode) : Encodes (mk m) (m.opcode zp zpX abs absX :: m.toMem.bytes) :=
    hbytes m ▸ encodes_of_opcode (hop m)
  intro b lo hi
  rw [← wordBytes_wordOf hi lo]
  exact ⟨form (.zp b), form (.zpX b), form (.abs (wordOf hi lo)), form (.absX (wordOf hi lo))⟩

/-- A shift or rotate has the accumulator form beside the memory forms of INC (R150 to R153). -/
theorem shiftEncoding_of_opcode {mk : ShiftOp → Instr} {acc zp zpX abs absX : Byte}
    (hop : ∀ o, (mk o).opcode = some (o.opcode acc zp zpX abs absX))
    (hbytes : ∀ o, (mk o).operandBytes = o.bytes) : ShiftEncoding mk acc zp zpX abs absX := by
  have hacc : Encodes (mk .acc) (acc :: ShiftOp.acc.bytes) := hbytes .acc ▸ encodes_of_opcode (hop .acc)
  have hmem : RmwEncoding (mk ∘ .mem) zp zpX abs absX :=
    rmwEncoding_of_opcode (fun m => hop (.mem m)) (fun m => hbytes (.mem m))
  exact fun b lo hi => ⟨hacc, hmem b lo hi⟩

end Sys2Proof
end

