-- ==== Sys2Proof/Proofs/ShiftIncDec.lean ====
section
/-! SUPPORT. The family 42_shift_incdec: the rotates as numbers, the shifts as rotates with no carry coming in, what
the shared shape of the shifts leaves, and the next states of the increments and decrements
(spec/42_shift_incdec.md R150 to R159). -/

namespace Sys2Proof.Machine

open Sys2Proof.Safety

/-! ### Bytes -/

/-- Bit 0 is set on the odd bytes. -/
theorem Byte.getElem_zero (b : Byte) : b[0] = decide (b.toNat % 2 = 1) := by
  rw [BitVec.getElem_eq_testBit_toNat, Nat.testBit_zero]

theorem Byte.toNat_add_one (b : Byte) : (b + 1).toNat = (b.toNat + 1) % 256 := BitVec.toNat_add b 1

theorem Byte.toNat_sub_one (b : Byte) : (b - 1).toNat = (b.toNat + 255) % 256 := by
  rw [BitVec.toNat_sub, Nat.add_comm]
  rfl

/-! ### The rotates as numbers -/

/-- ROL doubles: the old C comes in below the double, and its bit 8 is shifted out (R152). -/
theorem rotateLeft_toNat (v : Byte) (c : Bool) :
    (rotateLeft v c).result.toNat + 256 * (rotateLeft v c).out.toNat = 2 * v.toNat + c.toNat := by
  have hv := v.isLt
  have hor := Nat.two_pow_add_eq_or_of_lt (i := 1) c.toNat_lt (v.toNat % 128)
  have hshift : v.toNat <<< 1 % 2 ^ 8 = 2 ^ 1 * (v.toNat % 128) := by rw [Nat.shiftLeft_eq]; omega
  have hres : (rotateLeft v c).result.toNat = 2 ^ 1 * (v.toNat % 128) + c.toNat := by
    rw [rotateLeft, BitVec.toNat_or, BitVec.toNat_shiftLeft, hshift, hor]
    cases c <;> rfl
  have hout : (rotateLeft v c).out.toNat = v.toNat / 128 := by
    rw [rotateLeft, Byte.getElem_seven, Bool.toNat, Bool.cond_decide]
    split <;> omega
  omega

/-- ROR halves: the old C comes in at bit 7, and the remainder is shifted out (R153). -/
theorem rotateRight_toNat (v : Byte) (c : Bool) :
    2 * (rotateRight v c).result.toNat + (rotateRight v c).out.toNat = v.toNat + 256 * c.toNat := by
  have hv := v.isLt
  have hor := Nat.two_pow_add_eq_or_of_lt (i := 7) (b := v.toNat / 2) (by omega) c.toNat
  have hres : (rotateRight v c).result.toNat = 2 ^ 7 * c.toNat + v.toNat / 2 := by
    rw [rotateRight, BitVec.toNat_or, BitVec.toNat_ushiftRight, Nat.shiftRight_one, Nat.or_comm, hor]
    cases c <;> rfl
  have hout : (rotateRight v c).out.toNat = v.toNat % 2 := by
    rw [rotateRight, Byte.getElem_zero, Bool.toNat, Bool.cond_decide]
    split <;> omega
  omega

/-- N after ROR is the old C (R153). -/
theorem rotateRight_getElem_seven (v : Byte) (c : Bool) : (rotateRight v c).result[7] = c := by
  have hnat := rotateRight_toNat v c
  have hv := v.isLt
  have hout := (rotateRight v c).out.toNat_le
  rw [Byte.getElem_seven]
  cases c with
  | false => exact decide_eq_false (by rw [Bool.toNat_false] at hnat; omega)
  | true => exact decide_eq_true (by rw [Bool.toNat_true] at hnat; omega)

/-! ### The shifts are rotates with no carry coming in, and the rotates are inverse to each other -/

theorem shiftLeft_eq_rotateLeft (v : Byte) (c : Bool) : shiftLeft v c = rotateLeft v false := by
  simp [shiftLeft, rotateLeft]

theorem shiftRight_eq_rotateRight (v : Byte) (c : Bool) : shiftRight v c = rotateRight v false := by
  simp [shiftRight, rotateRight]

theorem Shifted.eq_of_toNat_eq {r : Shifted} {v : Byte} {c : Bool} (hv : r.result.toNat = v.toNat)
    (hc : r.out.toNat = c.toNat) : r = ⟨v, c⟩ := by
  have hout : r.out = c := Function.LeftInverse.injective Bool.ofNat_toNat hc
  rw [← BitVec.eq_of_toNat_eq hv, ← hout]

/-- Both rotates keep the nine bits of the operand and C (R152, R153). -/
theorem rotateRight_rotateLeft (v : Byte) (c : Bool) :
    rotateRight (rotateLeft v c).result (rotateLeft v c).out = ⟨v, c⟩ := by
  have hleft := rotateLeft_toNat v c
  have hright := rotateRight_toNat (rotateLeft v c).result (rotateLeft v c).out
  have hc := c.toNat_le
  have hout := (rotateRight (rotateLeft v c).result (rotateLeft v c).out).out.toNat_le
  exact Shifted.eq_of_toNat_eq (by omega) (by omega)

theorem rotateLeft_rotateRight (v : Byte) (c : Bool) :
    rotateLeft (rotateRight v c).result (rotateRight v c).out = ⟨v, c⟩ := by
  have hright := rotateRight_toNat v c
  have hleft := rotateLeft_toNat (rotateRight v c).result (rotateRight v c).out
  have hv := v.isLt
  have hres := (rotateLeft (rotateRight v c).result (rotateRight v c).out).result.isLt
  exact Shifted.eq_of_toNat_eq (by omega) (by omega)

/-! ### What a shift leaves -/

/-- The state after a shift or rotate `i` of `o` with outcome `r` (R150). -/
def shifted (i : Instr) (o : ShiftOp) (r : Shifted) (s : State) : State :=
  ((s.writeBack r.result o).setFlags (s.flags.afterShift r)).advance o.mode.length (baseCycles s.params i)

theorem exec_asl (o : ShiftOp) (s : State) :
    exec (.asl o) s = .next (shifted (.asl o) o (rotateLeft (shiftValue s o) false) s) := by
  rw [← shiftLeft_eq_rotateLeft _ s.flags.c]
  rfl

theorem exec_lsr (o : ShiftOp) (s : State) :
    exec (.lsr o) s = .next (shifted (.lsr o) o (rotateRight (shiftValue s o) false) s) := by
  rw [← shiftRight_eq_rotateRight _ s.flags.c]
  rfl

theorem exec_rol (o : ShiftOp) (s : State) :
    exec (.rol o) s = .next (shifted (.rol o) o (rotateLeft (shiftValue s o) s.flags.c) s) := rfl

theorem exec_ror (o : ShiftOp) (s : State) :
    exec (.ror o) s = .next (shifted (.ror o) o (rotateRight (shiftValue s o) s.flags.c) s) := rfl

/-- A shift writes A or memory, N, Z and C, and PC and the count (R150). -/
theorem shifted_frame (i : Instr) (o : ShiftOp) {r : Shifted} {n : Bool} (hn : r.result[7] = n) (s : State) :
    shifted i o r s = { s with
      a := (shifted i o r s).a, mem := (shifted i o r s).mem,
      flags := { s.flags with n := n, z := r.result == 0, c := r.out },
      pc := s.pc + BitVec.ofNat 16 o.mode.length, cycles := baseCycles s.params i } := by
  subst hn
  cases o <;> rfl

/-- A write to the bus leaves one byte (R50). -/
theorem storesByte_memWrite (s : State) (a : Addr) (v : Byte) : StoresByte s (s.memWrite a v) a v :=
  ⟨by rw [State.memRead_memWrite, if_pos rfl], fun b hb => by rw [State.memRead_memWrite, if_neg hb]⟩

theorem writesOperand_shifted (i : Instr) (o : ShiftOp) (r : Shifted) (s : State) :
    WritesOperand s (shifted i o r s) r.result o := by
  cases o with
  | acc => exact ⟨rfl, rfl⟩
  | mem m => exact ⟨rfl, storesByte_memWrite s (effAddr s m.toMem) r.result⟩

theorem shiftOperand : ShiftOperand := fun _ _ _ => ⟨rfl, rfl, rfl, rfl, rfl⟩

/-! ### The next states of the increments and decrements -/

theorem exec_inc (m : RmwMode) (s : State) : exec (.inc m) s =
    .next (((s.memWrite (effAddr s m.toMem) (s.memRead (effAddr s m.toMem) + 1)).setNZ
      (s.memRead (effAddr s m.toMem) + 1)).advance m.toMem.mode.length (baseCycles s.params (.inc m))) := rfl

theorem exec_dec (m : RmwMode) (s : State) : exec (.dec m) s =
    .next (((s.memWrite (effAddr s m.toMem) (s.memRead (effAddr s m.toMem) - 1)).setNZ
      (s.memRead (effAddr s m.toMem) - 1)).advance m.toMem.mode.length (baseCycles s.params (.dec m))) := rfl

theorem exec_inx (s : State) :
    exec .inx s = .next ((s.loadX (s.x + 1)).advance Mode.implied.length (tableCycles s.params 0xE8 2)) := rfl

theorem exec_iny (s : State) :
    exec .iny s = .next ((s.loadY (s.y + 1)).advance Mode.implied.length (tableCycles s.params 0xC8 2)) := rfl

theorem exec_dex (s : State) :
    exec .dex s = .next ((s.loadX (s.x - 1)).advance Mode.implied.length (tableCycles s.params 0xCA 2)) := rfl

theorem exec_dey (s : State) :
    exec .dey s = .next ((s.loadY (s.y - 1)).advance Mode.implied.length (tableCycles s.params 0x88 2)) := rfl

end Sys2Proof.Machine

open Sys2Proof Sys2Proof.Machine Sys2Proof.Safety

/-- Settles O37: ASL is ROL with no carry coming in, and ROL doubles. -/
theorem shiftsLeft : Obligations.ShiftsLeft :=
  ⟨shiftEncoding_of_opcode (fun _ => rfl) (fun _ => rfl), shiftEncoding_of_opcode (fun _ => rfl) (fun _ => rfl),
    shiftOperand, fun o s => ⟨_, _, _, _, _, _,
      exec_asl o s, shifted_frame _ o rfl s, writesOperand_shifted _ o _ s, rotateLeft_toNat _ false,
      exec_rol o s, shifted_frame _ o rfl s, writesOperand_shifted _ o _ s, rotateLeft_toNat _ s.flags.c⟩⟩

/-- Settles O38: LSR is ROR with no carry coming in, ROR halves, and N is the bit that came in. -/
theorem shiftsRight : Obligations.ShiftsRight :=
  ⟨shiftEncoding_of_opcode (fun _ => rfl) (fun _ => rfl), shiftEncoding_of_opcode (fun _ => rfl) (fun _ => rfl),
    shiftOperand, fun o s => ⟨_, _, _, _, _, _,
      exec_lsr o s, shifted_frame _ o (rotateRight_getElem_seven _ _) s, writesOperand_shifted _ o _ s,
      rotateRight_toNat _ false,
      exec_ror o s, shifted_frame _ o (rotateRight_getElem_seven _ _) s, writesOperand_shifted _ o _ s,
      rotateRight_toNat _ s.flags.c⟩⟩

/-- Settles O39: the rotates of A and C are inverse to each other. -/
theorem rotatesInvert : Obligations.RotatesInvert := by
  intro s
  have hleft := rotateRight_rotateLeft s.a s.flags.c
  have hright := rotateLeft_rotateRight s.a s.flags.c
  exact ⟨_, _, _, _,
    exec_rol .acc s, exec_ror .acc _, congrArg Shifted.result hleft, congrArg Shifted.out hleft,
    exec_ror .acc s, exec_rol .acc _, congrArg Shifted.result hright, congrArg Shifted.out hright⟩

/-- Settles O40: the next states, the byte written at `ea`, and its number. -/
theorem incrementMemory : Obligations.IncrementMemory :=
  ⟨rmwEncoding_of_opcode (fun _ => rfl) (fun _ => rfl), rmwEncoding_of_opcode (fun _ => rfl) (fun _ => rfl),
    fun m s => ⟨_, _, _, _,
      exec_inc m s, rfl, storesByte_memWrite s _ _, Byte.toNat_add_one _,
      exec_dec m s, rfl, storesByte_memWrite s _ _, Byte.toNat_sub_one _⟩⟩

/-- Settles O41: the encodings, the next states, and the numbers of the registers. -/
theorem incrementRegisters : Obligations.IncrementRegisters :=
  ⟨encodes_of_opcode rfl, encodes_of_opcode rfl, encodes_of_opcode rfl, encodes_of_opcode rfl, fun s =>
    ⟨_, _, _, _, exec_inx s, Byte.toNat_add_one _, exec_iny s, Byte.toNat_add_one _,
      exec_dex s, Byte.toNat_sub_one _, exec_dey s, Byte.toNat_sub_one _⟩⟩
end

