-- ==== Sys2Proof/Proofs/CompareBranch.lean ====
section
/-! SUPPORT. The family 43_compare_branch: the sign of a comparison's difference as a number, and what the eight branches
share, given their opcode byte and condition: encoding, base cost and next state (spec/43_compare_branch.md R170 to R181). -/

namespace Sys2Proof

open Sys2Proof.Machine Sys2Proof.Safety

/-- CPX and CPY are encoded as their Encoding lines say: the three modes (R171, R172). -/
theorem indexCompareEncoding_of_opcode {mk : ReadOp → Instr} {imm zp abs : Byte}
    (hop : ∀ r, (mk r).opcode = r.indexCompareOpcode imm zp abs)
    (hbytes : ∀ r, (mk r).operandBytes = r.bytes) : IndexCompareEncoding mk imm zp abs := by
  have form {r : ReadOp} {op : Byte} (h : r.indexCompareOpcode imm zp abs = some op) :
      Encodes (mk r) (op :: r.bytes) := hbytes r ▸ encodes_of_opcode ((hop r).trans h)
  intro b lo hi
  rw [← wordBytes_wordOf hi lo]
  exact ⟨form rfl, form rfl, form rfl⟩

end Sys2Proof

namespace Sys2Proof.Machine

open Sys2Proof.Safety

/-! ### Compares -/

theorem exec_cmp (r : ReadOp) (s : State) : exec (.cmp r) s =
    .next ((s.setFlags (s.flags.afterCompare s.a (readValue s r))).advance r.mode.length (readCost s (.cmp r) r)) := rfl

theorem exec_cpx (r : ReadOp) (s : State) : exec (.cpx r) s =
    .next ((s.setFlags (s.flags.afterCompare s.x (readValue s r))).advance r.mode.length (readCost s (.cpx r) r)) := rfl

theorem exec_cpy (r : ReadOp) (s : State) : exec (.cpy r) s =
    .next ((s.setFlags (s.flags.afterCompare s.y (readValue s r))).advance r.mode.length (readCost s (.cpy r) r)) := rfl

/-- `N` of a compare is bit 7 of the difference mod 256 (R170). -/
theorem Byte.sub_getElem_seven_iff (a m : Byte) :
    (a - m)[7] = true ↔ 128 ≤ (a.toNat + 256 - m.toNat) % 256 := by
  have hm := m.isLt
  rw [Byte.getElem_seven, decide_eq_true_iff, BitVec.toNat_sub]
  omega

/-! ### Branches -/

theorem branchNext_toNat (s : State) : (branchNext s).toNat = (s.pc.toNat + 2) % 65536 := BitVec.toNat_add s.pc 2

/-- A branch's offset is a signed byte (R114). -/
theorem branchTarget_toNat (s : State) (b1 : Byte) :
    ((branchTarget s b1).toNat : Int) = (s.pc.toNat + 2 + b1.toInt) % 65536 := by
  have hnext := branchNext_toNat s
  rw [branchTarget, sext16, BitVec.signExtend, BitVec.toNat_add, BitVec.toNat_ofInt]
  omega

/-- A taken branch costs one cycle more, and two when its target lies on another page (R173). -/
theorem takenExtra_eq (target next : Addr) :
    takenExtra target next = if target.toNat / 256 ≠ next.toNat / 256 then 2 else 1 := by
  simp only [takenExtra, otherPage, bne_iff_ne, ne_eq, and_pageMask_eq_iff]
  split <;> rfl

section
variable {i : Instr} {op b1 : Byte} {s : State} {cond : Bool}

theorem encodes_branch (hop : i.opcode = some op) (h : branchCondition s i = some (cond, b1)) :
    Encodes i [op, b1] := by
  have hbytes : i.operandBytes = [b1] := by
    cases i with
    | bpl | bmi | bvc | bvs | bcc | bcs | bne | beq => cases h; rfl
    | _ => cases h
  exact hbytes ▸ encodes_of_opcode hop

theorem baseCycles_branch (hop : i.opcode = some op) (h : branchCondition s i = some (cond, b1)) (p : Params) :
    baseCycles p i = tableCycles p op 2 := by
  cases i with
  | bpl | bmi | bvc | bvs | bcc | bcs | bne | beq => cases hop; rfl
  | _ => cases h

/-- A branch writes PC and returns its cost, and changes nothing else (R173). -/
theorem exec_branch_of_opcode (hop : i.opcode = some op) (h : branchCondition s i = some (cond, b1)) :
    exec i s = .next { s with
      pc := if cond then branchTarget s b1 else branchNext s
      cycles := tableCycles s.params op 2 + if cond then takenExtra (branchTarget s b1) (branchNext s) else 0 } := by
  rw [exec_branch h, branchIf_next, baseCycles_branch hop h]
  cases cond <;> rfl

end

end Sys2Proof.Machine

open Sys2Proof Sys2Proof.Machine Sys2Proof.Safety

/-- Settles O42: the encodings, the next state, and its three flags. -/
theorem compareAccumulator : Obligations.CompareAccumulator :=
  ⟨aluEncoding_of_opcode (fun _ => rfl) (fun _ => rfl), fun r s =>
    ⟨_, _, _, exec_cmp r s, decide_eq_true_iff, beq_iff_eq, Byte.sub_getElem_seven_iff _ _⟩⟩

/-- Settles O43: the encodings, and for X and for Y the next state and its three flags. -/
theorem compareIndex : Obligations.CompareIndex := by
  refine ⟨indexCompareEncoding_of_opcode (fun _ => rfl) (fun _ => rfl),
    indexCompareEncoding_of_opcode (fun _ => rfl) (fun _ => rfl), fun r s p hp => ?_⟩
  obtain rfl | rfl := List.mem_pair.mp hp
  · exact ⟨_, _, _, exec_cpx r s, decide_eq_true_iff, beq_iff_eq, Byte.sub_getElem_seven_iff _ _⟩
  · exact ⟨_, _, _, exec_cpy r s, decide_eq_true_iff, beq_iff_eq, Byte.sub_getElem_seven_iff _ _⟩

/-- Settles O44: the rows give each branch its opcode byte and condition, and the laws of the branches need no more. -/
theorem branches : Obligations.Branches := by
  intro b1 s p hp
  have hrow : p.1.opcode = some p.2.1 ∧ branchCondition s p.1 = some (p.2.2, b1) := by
    revert p
    simp [Instr.opcode, branchCondition]
  obtain ⟨hop, hcond⟩ := hrow
  refine ⟨encodes_branch hop hcond, branchNext s, branchTarget s b1, branchNext_toNat s, branchTarget_toNat s b1, ?_⟩
  rw [exec_branch_of_opcode hop hcond, takenExtra_eq]
end

