-- ==== Sys2Proof/Proofs/Stack.lean ====
section
/-! SUPPORT. The stack as a whole: its cells by their distance from SP (R25), a pushed word and the word pulled back
(spec/44_jump_stack.md R192, R193), and SP after a sequence of pushes or pulls (R199). -/

namespace Sys2Proof.Machine

open Sys2Proof.Safety

/-! ### Stack cells -/

/-- The cell at a distance from SP is the one SP would point to, having moved so far (R25). -/
theorem stackCell_eq_stackAddr (s : State) (n : Int) : stackCell s n = stackAddr (s.sp + BitVec.ofInt 8 n) := by
  apply BitVec.eq_of_toNat_eq
  rw [stackAddr_toNat, stackCell, BitVec.toNat_ofNat, BitVec.toNat_add, BitVec.toNat_ofInt]
  omega

theorem stackCell_neg_one (s : State) : stackCell s (-1) = stackAddr (s.sp - 1) := by
  rw [stackCell_eq_stackAddr, BitVec.sub_eq_add_neg]
  rfl

theorem stackCell_two (s : State) : stackCell s 2 = stackAddr (s.sp + 1 + 1) := by
  rw [stackCell_eq_stackAddr, BitVec.add_assoc]
  rfl

/-- The cell of a pushed word's low byte is not the cell of its high byte. -/
theorem stackAddr_ne_stackAddr_sub_one (p : Byte) : stackAddr p ≠ stackAddr (p - 1) := by
  rw [ne_eq, stackAddr_inj]
  bv_omega

/-! ### Words on the stack -/

theorem highByte_toNat (w : Addr) : (highByte w).toNat = w.toNat / 256 := by
  have hw := w.isLt
  rw [highByte, BitVec.extractLsb'_toNat, Nat.shiftRight_eq_div_pow]
  omega

theorem lowByte_toNat (w : Addr) : (lowByte w).toNat = w.toNat % 256 := by
  rw [lowByte, BitVec.extractLsb'_toNat, Nat.shiftRight_zero]

/-- The high byte is pushed first, so it lies at the higher address (R192). -/
theorem State.memRead_pushWord_high (s : State) (w : Addr) :
    (s.pushWord w).memRead (stackAddr s.sp) = highByte w := by
  rw [State.pushWord, State.memRead_push, State.push_sp, if_neg (stackAddr_ne_stackAddr_sub_one _),
    State.memRead_push, if_pos rfl]

theorem State.memRead_pushWord_low (s : State) (w : Addr) :
    (s.pushWord w).memRead (stackAddr (s.sp - 1)) = lowByte w := by
  rw [State.pushWord, State.memRead_push, State.push_sp, if_pos rfl]

theorem State.memRead_pushWord_of_ne (s : State) (w : Addr) {a : Addr} (hhi : a ≠ stackAddr s.sp)
    (hlo : a ≠ stackAddr (s.sp - 1)) : (s.pushWord w).memRead a = s.memRead a := by
  rw [State.pushWord, State.memRead_push, State.push_sp, if_neg hlo, State.memRead_push, if_neg hhi]

/-- What a pushed word leaves in memory, by the distances from SP (R192). -/
theorem State.memRead_pushWord_stackCell (s : State) (w : Addr) :
    ((s.pushWord w).memRead (stackCell s 0)).toNat = w.toNat / 256 ∧
    ((s.pushWord w).memRead (stackCell s (-1))).toNat = w.toNat % 256 ∧
    ∀ a, a ≠ stackCell s 0 → a ≠ stackCell s (-1) → (s.pushWord w).memRead a = s.memRead a := by
  rw [stackCell_zero, stackCell_neg_one, State.memRead_pushWord_high, State.memRead_pushWord_low]
  exact ⟨highByte_toNat w, lowByte_toNat w, fun _ => s.memRead_pushWord_of_ne w⟩

/-- A word is pulled back from any state that keeps the SP and the two stack bytes its push left (R194, R262). -/
theorem State.pulledWord_of_pushWord {s t : State} {w : Addr} (hsp : t.sp = s.sp - 1 - 1)
    (hhi : t.memRead (stackAddr s.sp) = highByte w) (hlo : t.memRead (stackAddr (s.sp - 1)) = lowByte w) :
    t.pulledWord = w := by
  rw [State.pulledWord, State.pulled, State.pulled, State.memRead_pull, State.pull_sp, hsp, BitVec.sub_add_cancel,
    BitVec.sub_add_cancel, hhi, hlo, wordOf_high_low]

/-! ### Sequences of pushes and pulls -/

theorem State.foldl_push_sp (bytes : List Byte) (s : State) :
    (bytes.foldl State.push s).sp = s.sp - BitVec.ofNat 8 bytes.length := by
  induction bytes generalizing s with
  | nil => exact (BitVec.sub_zero s.sp).symm
  | cons b rest ih =>
    rw [List.foldl_cons, ih, State.push_sp, List.length_cons, BitVec.ofNat_add, sub_sub, add_comm]
    rfl

theorem State.iterate_pull_sp (n : Nat) (s : State) : (State.pull^[n] s).sp = s.sp + BitVec.ofNat 8 n := by
  induction n with
  | zero => exact (BitVec.add_zero s.sp).symm
  | succ n ih =>
    rw [Function.iterate_succ_apply', State.pull_sp, ih, BitVec.ofNat_add, ← BitVec.add_assoc]
    rfl

/-- After 256 pushes SP is back, so the next push overwrites the byte of the first (R199). -/
theorem State.memRead_push_257th {bytes : List Byte} (h : bytes.length = 256) (s : State) (last : Byte) :
    ((bytes ++ [last]).foldl State.push s).memRead (stackAddr s.sp) = last := by
  have hsp : (bytes.foldl State.push s).sp = s.sp := by
    rw [State.foldl_push_sp, h]
    exact BitVec.sub_zero s.sp
  rw [List.foldl_concat, State.memRead_push, hsp, if_pos rfl]

end Sys2Proof.Machine
end

