-- ==== Sys2Proof/Proofs/JumpStack.lean ====
section
/-! SUPPORT. The family 44_jump_stack: the next states of the jumps and the stack instructions, the target of JMP
indirect, and the return address under the two conventions (spec/44_jump_stack.md R190 to R199). -/

namespace Sys2Proof

open Sys2Proof.Machine Sys2Proof.Safety

/-- An instruction with a word operand is encoded low byte first (R190 to R192). -/
theorem encodes_wordOperand {mk : Addr → Instr} {op : Byte} (hop : ∀ w, (mk w).opcode = some op)
    (hbytes : ∀ w, (mk w).operandBytes = wordBytes w) (lo hi : Byte) : Encodes (mk (wordOf hi lo)) [op, lo, hi] := by
  rw [← wordBytes_wordOf hi lo, ← hbytes]
  exact encodes_of_opcode (hop _)

end Sys2Proof

namespace Sys2Proof.Machine

open Sys2Proof.Safety

/-! ### The next states -/

theorem exec_jmp (w : Addr) (s : State) :
    exec (.jmp w) s = .next (s.finishAt w (tableCycles s.params 0x4C 3)) := rfl

theorem exec_jmpInd (w : Addr) (s : State) :
    exec (.jmpInd w) s = .next (s.finishAt (indirectTarget s w) (tableCycles s.params 0x6C 5)) := rfl

theorem exec_jsr (target : Addr) (s : State) : exec (.jsr target) s =
    .next ((s.pushWord (returnAddress s)).finishAt target (tableCycles s.params 0x20 6)) := rfl

theorem exec_rts (s : State) : exec .rts s =
    .next (s.pull.pull.finishAt (returnTarget s s.pulledWord) (tableCycles s.params 0x60 6)) := rfl

theorem exec_pha (s : State) :
    exec .pha s = .next ((s.push s.a).advance Mode.implied.length (tableCycles s.params 0x48 3)) := rfl

theorem exec_php (s : State) :
    exec .php s = .next ((s.push s.flags.pack).advance Mode.implied.length (tableCycles s.params 0x08 3)) := rfl

theorem exec_plp (s : State) : exec .plp s =
    .next ((s.pull.setFlags (Flags.unpack s.pulled)).advance Mode.implied.length (tableCycles s.params 0x28 4)) := rfl

theorem exec_pla (s : State) : exec .pla s =
    .next ((s.pull.loadA s.pulled).advance Mode.implied.length (tableCycles s.params 0x68 4)) := rfl

/-! ### Targets and return addresses -/

/-- The target of JMP indirect, under both values of `JMP_INDIRECT_PAGE_WRAP` (R191). -/
theorem indirectTarget_toNat (s : State) (w : Addr) : (indirectTarget s w).toNat =
    byteAt s w.toNat + 256 * byteAt s
      (if s.params.jmpIndirectPageWrap then w.toNat / 256 * 256 + (w.toNat + 1) % 256 else (w.toNat + 1) % 65536) := by
  obtain ⟨hnext, -, hpage⟩ := wordReads s w 0
  by_cases hwrap : s.params.jmpIndirectPageWrap = true
  · rw [indirectTarget_of_wrap hwrap, if_pos hwrap, hpage]
  · rw [indirectTarget_of_noWrap hwrap, if_neg hwrap, hnext]

/-- The state under another return-address convention (R194). -/
def State.withConvention (s : State) (c : ReturnConvention) : State :=
  { s with params := { s.params with returnConvention := c } }

theorem returnAddress_toNat (s : State) : (returnAddress s).toNat =
    (s.pc.toNat + if s.params.returnConvention = .nextInstruction then 3 else 2) % 65536 := by
  rw [returnAddress]
  cases s.params.returnConvention <;> exact BitVec.toNat_add s.pc _

theorem returnTarget_toNat (s : State) (w : Addr) : (returnTarget s w).toNat =
    (w.toNat + if s.params.returnConvention = .nextInstruction then 0 else 1) % 65536 := by
  rw [returnTarget]
  cases s.params.returnConvention with
  | nextInstruction => exact (Nat.mod_eq_of_lt w.isLt).symm
  | nmosLastByte => exact BitVec.toNat_add w 1

/-- Under either convention RTS goes from JSR's return address to the instruction after JSR (R194). -/
theorem returnTarget_returnAddress {s t : State} (h : t.params = s.params) :
    returnTarget t (returnAddress s) = s.pc + 3 := by
  rw [returnTarget, returnAddress, h]
  cases s.params.returnConvention with
  | nextInstruction => rfl
  | nmosLastByte => exact BitVec.add_assoc s.pc 2 1

/-- The pulled word as a number, by the distances of its bytes from SP (R193). -/
theorem State.pulledWord_toNat (s : State) :
    s.pulledWord.toNat = (s.memRead (stackCell s 1)).toNat + 256 * (s.memRead (stackCell s 2)).toNat := by
  rw [stackCell_one, stackCell_two, ← byteAt_toNat, ← byteAt_toNat]
  exact wordOf_memRead_toNat s _ _

/-! ### The flags byte and SP -/

/-- Bits 5 and 4 of the flags byte are set: packing the flags it holds sets them (R30, R31). -/
theorem Flags.pack_getElem_five (f : Flags) : f.pack[5] = true := by
  rw [← f.unpack_pack, Flags.pack_unpack, BitVec.getElem_or]
  exact Bool.or_true _

theorem Flags.pack_getElem_four (f : Flags) : f.pack[4] = true := by
  rw [← f.unpack_pack, Flags.pack_unpack, BitVec.getElem_or]
  exact Bool.or_true _

theorem State.pushWord_sp_toNat (s : State) (w : Addr) : (s.pushWord w).sp.toNat = (s.sp.toNat + 254) % 256 := by
  rw [State.pushWord_sp, Byte.toNat_sub_one, Byte.toNat_sub_one]
  omega

theorem State.pull_pull_sp_toNat (s : State) : s.pull.pull.sp.toNat = (s.sp.toNat + 2) % 256 := by
  rw [State.pull_sp, State.pull_sp, Byte.toNat_add_one, Byte.toNat_add_one]
  omega

end Sys2Proof.Machine

open Sys2Proof Sys2Proof.Machine Sys2Proof.Safety

/-- Settles O45: the next states, and the indirect target by `indirectTarget_toNat`. -/
theorem jumps : Obligations.Jumps :=
  ⟨fun lo hi => ⟨encodes_wordOperand (fun _ => rfl) (fun _ => rfl) lo hi,
      encodes_wordOperand (fun _ => rfl) (fun _ => rfl) lo hi⟩,
    fun w s => ⟨_, exec_jmp w s, exec_jmpInd w s, indirectTarget_toNat s w⟩⟩

/-- Settles O46: the next state, and what the push of the return address leaves. -/
theorem jumpToSubroutine : Obligations.JumpToSubroutine :=
  ⟨encodes_wordOperand (fun _ => rfl) (fun _ => rfl), fun target s =>
    ⟨_, _, exec_jsr target s, rfl, s.pushWord_sp_toNat _, returnAddress_toNat s,
      s.memRead_pushWord_stackCell _⟩⟩

/-- Settles O47: the next state, and the numbers of SP and of the target. -/
theorem returnFromSubroutine : Obligations.ReturnFromSubroutine := by
  refine ⟨encodes_of_opcode rfl, fun s =>
    ⟨_, returnTarget s s.pulledWord, exec_rts s, s.pull_pull_sp_toNat, ?_⟩⟩
  rw [returnTarget_toNat, State.pulledWord_toNat]

/-- Settles O48: RTS pulls the return address back and goes to `pc0 + 3`; what JSR leaves under another convention is
the push of another word. -/
theorem subroutineLaw : Obligations.SubroutineLaw := by
  refine fun target s => ⟨_, exec_jsr target s, fun w hsp hparams hhi hlo => ?_, fun c => ?_⟩
  · have hword : w.pulledWord = returnAddress s := by
      rw [stackCell_zero] at hhi
      rw [stackCell_neg_one] at hlo
      exact State.pulledWord_of_pushWord (hsp.trans (s.pushWord_sp _)) (hhi.trans (s.memRead_pushWord_high _))
        (hlo.trans (s.memRead_pushWord_low _))
    refine ⟨_, exec_rts w, ?_, ?_⟩
    · rw [hword, State.finishAt_pc, returnTarget_returnAddress hparams]
    · simp [hsp]
  · obtain ⟨-, -, hframe⟩ := s.memRead_pushWord_stackCell (returnAddress s)
    obtain ⟨hhi', hlo', hframe'⟩ :=
      (s.withConvention c).memRead_pushWord_stackCell (returnAddress (s.withConvention c))
    rw [returnAddress_toNat] at hhi' hlo'
    exact ⟨_, exec_jsr target (s.withConvention c), rfl, rfl,
      fun a hne0 hne1 => (hframe' a hne0 hne1).trans (hframe a hne0 hne1).symm, hhi', hlo'⟩

/-- Settles O49: the next states, the byte each push stores, and the layout of the flags byte. -/
theorem stackInstructions : Obligations.StackInstructions := by
  refine ⟨encodes_of_opcode rfl, encodes_of_opcode rfl, encodes_of_opcode rfl, fun s => ?_⟩
  rw [stackCell_zero, stackCell_one]
  exact ⟨_, _, _, _, exec_pha s, rfl, Byte.toNat_sub_one _, storesByte_push s s.a,
    exec_php s, rfl, Byte.toNat_sub_one _, storesByte_push s s.flags.pack, s.flags.pack_toNat,
    Byte.toNat_add_one _, exec_plp s⟩

/-- Settles O50: the next state. -/
theorem pullAccumulator : Obligations.PullAccumulator := by
  refine ⟨encodes_of_opcode rfl, fun s => ?_⟩
  rw [stackCell_one]
  exact ⟨_, exec_pla s, Byte.toNat_add_one _⟩

/-- Settles O51: a pull after a push finds the pushed byte; and SP moves by one with each push and pull. -/
theorem stackLaws : Obligations.StackLaws := by
  refine ⟨fun s => ?_, fun bytes s => ⟨?_, fun last h => ?_⟩⟩
  · have hpha : (s.push s.a).pulled = s.a := s.pulled_push s.a
    have hphp : (s.push s.flags.pack).pulled = s.flags.pack := s.pulled_push s.flags.pack
    have hsp : s.sp - 1 + 1 = s.sp := BitVec.sub_add_cancel s.sp 1
    exact ⟨_, _, _, _, _, _, exec_pha s, exec_php s,
      exec_pla _, hpha, hsp, congrArg (fun b : Byte => b[7]) hpha, congrArg (fun b : Byte => b == 0) hpha,
      exec_plp _, (congrArg Flags.unpack hphp).trans s.flags.unpack_pack, hsp,
      exec_plp _, congrArg Flags.unpack hpha,
      exec_pla _, hphp, (congrArg (fun b : Byte => b[5]) hphp).trans s.flags.pack_getElem_five,
      (congrArg (fun b : Byte => b[4]) hphp).trans s.flags.pack_getElem_four⟩
  · rw [State.iterate_pull_sp, State.foldl_push_sp, BitVec.sub_add_cancel]
  · rw [stackCell_zero, State.memRead_push_257th h]
end

