-- ==== Sys2Proof/Proofs/TransferFlagNop.lean ====
section
/-! SUPPORT. The family 45_transfer_flag_nop: the next states of the register transfers, the flag operations and NOP
(spec/45_transfer_flag_nop.md R210 to R222, R224). -/

namespace Sys2Proof.Machine

/-! ### The next states of the transfers: five are loads, which set N and Z, and TXS writes SP alone -/

theorem exec_tax (s : State) :
    exec .tax s = .next ((s.loadX s.a).advance Mode.implied.length (tableCycles s.params 0xAA 2)) := rfl

theorem exec_tay (s : State) :
    exec .tay s = .next ((s.loadY s.a).advance Mode.implied.length (tableCycles s.params 0xA8 2)) := rfl

theorem exec_txa (s : State) :
    exec .txa s = .next ((s.loadA s.x).advance Mode.implied.length (tableCycles s.params 0x8A 2)) := rfl

theorem exec_tya (s : State) :
    exec .tya s = .next ((s.loadA s.y).advance Mode.implied.length (tableCycles s.params 0x98 2)) := rfl

theorem exec_tsx (s : State) :
    exec .tsx s = .next ((s.loadX s.sp).advance Mode.implied.length (tableCycles s.params 0xBA 2)) := rfl

theorem exec_txs (s : State) :
    exec .txs s = .next ((s.setSp s.x).advance Mode.implied.length (tableCycles s.params 0x9A 2)) := rfl

/-! ### The next states of the flag operations, each writing one flag, and of NOP -/

theorem exec_clc (s : State) : exec .clc s =
    .next ((s.setFlags { s.flags with c := false }).advance Mode.implied.length (tableCycles s.params 0x18 2)) := rfl

theorem exec_cld (s : State) : exec .cld s =
    .next ((s.setFlags { s.flags with d := false }).advance Mode.implied.length (tableCycles s.params 0xD8 2)) := rfl

theorem exec_cli (s : State) : exec .cli s =
    .next ((s.setFlags { s.flags with i := false }).advance Mode.implied.length (tableCycles s.params 0x58 2)) := rfl

theorem exec_clv (s : State) : exec .clv s =
    .next ((s.setFlags { s.flags with v := false }).advance Mode.implied.length (tableCycles s.params 0xB8 2)) := rfl

theorem exec_sec (s : State) : exec .sec s =
    .next ((s.setFlags { s.flags with c := true }).advance Mode.implied.length (tableCycles s.params 0x38 2)) := rfl

theorem exec_sed (s : State) : exec .sed s =
    .next ((s.setFlags { s.flags with d := true }).advance Mode.implied.length (tableCycles s.params 0xF8 2)) := rfl

theorem exec_sei (s : State) : exec .sei s =
    .next ((s.setFlags { s.flags with i := true }).advance Mode.implied.length (tableCycles s.params 0x78 2)) := rfl

theorem exec_nop (s : State) :
    exec .nop s = .next (s.advance Mode.implied.length (tableCycles s.params 0xEA 2)) := rfl

end Sys2Proof.Machine

open Sys2Proof Sys2Proof.Machine Sys2Proof.Safety

/-- Settles O53: the six encodings and the six next states. -/
theorem transfers : Obligations.Transfers :=
  ⟨encodes_of_opcode rfl, encodes_of_opcode rfl, encodes_of_opcode rfl, encodes_of_opcode rfl, encodes_of_opcode rfl,
    encodes_of_opcode rfl, fun s => ⟨exec_tax s, exec_tay s, exec_txa s, exec_tya s, exec_tsx s, exec_txs s⟩⟩

/-- Settles O54: the eight encodings and the eight next states. -/
theorem flagOperations : Obligations.FlagOperations :=
  ⟨encodes_of_opcode rfl, encodes_of_opcode rfl, encodes_of_opcode rfl, encodes_of_opcode rfl, encodes_of_opcode rfl,
    encodes_of_opcode rfl, encodes_of_opcode rfl, encodes_of_opcode rfl, fun s =>
      ⟨exec_clc s, exec_cld s, exec_cli s, exec_clv s, exec_sec s, exec_sed s, exec_sei s, exec_nop s⟩⟩
end

