-- ==== Sys2Proof/Proofs/LoadStore.lean ====
section
/-! SUPPORT. The family 46_load_store: the encodings and the next states of the loads and the stores
(spec/46_load_store.md R240 to R245). -/

namespace Sys2Proof.Machine

open Sys2Proof.Safety

/-! ### Loads -/

theorem exec_lda (r : ReadOp) (s : State) : exec (.lda r) s =
    .next ((s.loadA (readValue s r)).advance r.mode.length (readCost s (.lda r) r)) := rfl

theorem exec_ldx (r : ReadOp) (s : State) : exec (.ldx r) s =
    .next ((s.loadX (readValue s r)).advance r.mode.length (readCost s (.ldx r) r)) := rfl

theorem exec_ldy (r : ReadOp) (s : State) : exec (.ldy r) s =
    .next ((s.loadY (readValue s r)).advance r.mode.length (readCost s (.ldy r) r)) := rfl

/-! ### Stores -/

/-- The three stores differ in the register they store alone (R243 to R245). -/
theorem exec_eq_storeByte {m : MemMode} {s : State} {p : Instr × Byte}
    (hp : p ∈ [(Instr.sta m, s.a), (.stx m, s.x), (.sty m, s.y)]) : exec p.1 s = storeByte p.1 m p.2 s := by
  obtain rfl | rfl | rfl := List.mem_cons.mp hp |>.imp_right List.mem_pair.mp <;> rfl

/-- A store writes memory, PC and the count, and no register or flag (R116). -/
theorem storeByte_frame (i : Instr) (m : MemMode) (v : Byte) (s : State) : ∃ t,
    storeByte i m v s = .next t ∧ StoresByte s t (effAddr s m) v ∧
    t = { s with mem := t.mem, pc := s.pc + BitVec.ofNat 16 m.mode.length, cycles := baseCycles s.params i } :=
  ⟨_, storeByte_next i m v s, storesByte_memWrite s _ v, rfl⟩

end Sys2Proof.Machine

open Sys2Proof Sys2Proof.Machine Sys2Proof.Safety

/-- Settles O56: the thirteen encodings, and what the shared shape of the stores leaves. -/
theorem stores : Obligations.Stores := by
  refine ⟨fun b lo hi => ?_, fun m s p hp => ?_⟩
  · rw [← wordBytes_wordOf hi lo]
    exact ⟨encodes_of_opcode rfl, encodes_of_opcode rfl, encodes_of_opcode rfl, encodes_of_opcode rfl,
      encodes_of_opcode rfl, encodes_of_opcode rfl, encodes_of_opcode rfl, encodes_of_opcode rfl,
      encodes_of_opcode rfl, encodes_of_opcode rfl, encodes_of_opcode rfl, encodes_of_opcode rfl,
      encodes_of_opcode rfl⟩
  · rw [exec_eq_storeByte hp]
    exact storeByte_frame p.1 m p.2 s

/-- Settles O55: the encodings, the three next states, and the operand as the resolver gives it. -/
theorem loads : Obligations.Loads := by
  refine ⟨aluEncoding_of_opcode (fun _ => rfl) (fun _ => rfl), fun b lo hi => ?_, fun r s =>
    ⟨exec_lda r s, exec_ldx r s, exec_ldy r s, fun _ => rfl, fun _ => ⟨rfl, rfl⟩⟩⟩
  rw [← wordBytes_wordOf hi lo]
  exact ⟨encodes_of_opcode rfl, encodes_of_opcode rfl, encodes_of_opcode rfl, encodes_of_opcode rfl,
    encodes_of_opcode rfl, encodes_of_opcode rfl, encodes_of_opcode rfl, encodes_of_opcode rfl,
    encodes_of_opcode rfl, encodes_of_opcode rfl⟩
end

