-- ==== Sys2Proof/Proofs/Trap.lean ====
section
/-! SUPPORT. The family 47_system: what the trap leaves in memory and where it goes, and what its return pulls
(spec/47_system.md R260 to R262). -/

namespace Sys2Proof.Machine

open Sys2Proof.Safety

/-! ### The next states -/

theorem exec_brk (s : State) :
    exec .brk s = .next (s.takeBreak.setCycles (tableCycles s.params 0x00 7)) := rfl

theorem exec_rti (s : State) :
    exec .rti s = .next (s.returnFromBreak.setCycles (tableCycles s.params 0x40 6)) := rfl

@[simp] theorem State.memRead_setCycles (s : State) (n : Nat) (a : Addr) :
    (s.setCycles n).memRead a = s.memRead a := rfl

/-! ### The cells of the three stack bytes -/

theorem stackCell_neg_two (s : State) : stackCell s (-2) = stackAddr (s.sp - 1 - 1) := by
  rw [stackCell_eq_stackAddr, BitVec.sub_sub, BitVec.sub_eq_add_neg]
  rfl

theorem stackCell_three (s : State) : stackCell s 3 = stackAddr (s.sp + 1 + 1 + 1) := by
  rw [stackCell_eq_stackAddr, BitVec.add_assoc, BitVec.add_assoc]
  rfl

theorem stackCell_zero_ne_neg_two (s : State) : stackCell s 0 ≠ stackCell s (-2) := by
  rw [stackCell_zero, stackCell_neg_two, ne_eq, stackAddr_inj]
  bv_omega

theorem stackCell_neg_one_ne_neg_two (s : State) : stackCell s (-1) ≠ stackCell s (-2) := by
  rw [stackCell_neg_one, stackCell_neg_two]
  exact stackAddr_ne_stackAddr_sub_one _

/-- No address past page 1 is a stack cell (R25). -/
theorem ne_stackCell_of_le {a : Addr} (h : 0x0200 ≤ a.toNat) (s : State) (n : Int) : a ≠ stackCell s n := by
  rintro rfl
  rw [stackCell_eq_stackAddr] at h
  exact absurd (stackAddr_mem_page _).2 (Nat.not_lt.mpr h)

/-! ### Taking the trap -/

/-- The trap pushes the return address and then the flags byte (R260). -/
theorem State.memRead_takeBreak (s : State) (a : Addr) : s.takeBreak.memRead a =
    if a = stackCell s (-2) then s.flags.pack else (s.pushWord (s.pc + 2)).memRead a := by
  rw [State.memRead_eq, State.takeBreak_mem, ← State.memRead_eq, State.memRead_push, State.pushWord_sp,
    stackCell_neg_two]

theorem State.memRead_takeBreak_flags (s : State) : s.takeBreak.memRead (stackCell s (-2)) = s.flags.pack := by
  rw [State.memRead_takeBreak, if_pos rfl]

theorem State.memRead_takeBreak_high (s : State) : s.takeBreak.memRead (stackCell s 0) = highByte (s.pc + 2) := by
  rw [State.memRead_takeBreak, if_neg (stackCell_zero_ne_neg_two s), stackCell_zero, State.memRead_pushWord_high]

theorem State.memRead_takeBreak_low (s : State) : s.takeBreak.memRead (stackCell s (-1)) = lowByte (s.pc + 2) := by
  rw [State.memRead_takeBreak, if_neg (stackCell_neg_one_ne_neg_two s), stackCell_neg_one,
    State.memRead_pushWord_low]

theorem State.memRead_takeBreak_of_ne (s : State) {a : Addr} (hhi : a ≠ stackCell s 0) (hlo : a ≠ stackCell s (-1))
    (hflags : a ≠ stackCell s (-2)) : s.takeBreak.memRead a = s.memRead a := by
  obtain ⟨-, -, hframe⟩ := s.memRead_pushWord_stackCell (s.pc + 2)
  rw [State.memRead_takeBreak, if_neg hflags, hframe a hhi hlo]

/-- The whole next state: the trap leaves A, X, Y, the log, the parameters, and of the flags all but I (R260). -/
theorem State.takeBreak_setCycles (s : State) (n : Nat) : s.takeBreak.setCycles n = { s with
    sp := s.takeBreak.sp, mem := s.takeBreak.mem, flags := { s.flags with i := true }, pc := s.takeBreak.pc,
    cycles := n } := by
  rw [← s.takeBreak_a, ← s.takeBreak_x, ← s.takeBreak_y, ← s.takeBreak_flags, ← s.takeBreak_log,
    ← s.takeBreak_params]
  rfl

/-- The three pushes do not reach the vector, so PC is the word that stood there before them (R260). -/
theorem State.takeBreak_pc_eq_memRead16 (s : State) : s.takeBreak.pc = s.memRead16 breakVector := by
  have unchanged {a : Addr} (h : 0x0200 ≤ a.toNat) : s.takeBreak.memRead a = s.memRead a :=
    s.memRead_takeBreak_of_ne (ne_stackCell_of_le h s 0) (ne_stackCell_of_le h s (-1)) (ne_stackCell_of_le h s (-2))
  calc s.takeBreak.pc
    _ = s.takeBreak.memRead16 breakVector := rfl
    _ = s.memRead16 breakVector := by
      rw [State.memRead16, unchanged (by decide), unchanged (by decide), State.memRead16]

theorem State.takeBreak_sp_toNat (s : State) : s.takeBreak.sp.toNat = (s.sp.toNat + 253) % 256 := by
  rw [State.takeBreak_sp, Byte.toNat_sub_one, Byte.toNat_sub_one, Byte.toNat_sub_one]
  omega

/-! ### Returning from it -/

/-- The whole next state: the return changes SP, PC and the flags (R261). -/
theorem State.returnFromBreak_setCycles (s : State) (n : Nat) : s.returnFromBreak.setCycles n = { s with
    sp := s.returnFromBreak.sp, pc := s.returnFromBreak.pc, flags := Flags.unpack s.pulled, cycles := n } := by
  rw [← s.returnFromBreak_a, ← s.returnFromBreak_x, ← s.returnFromBreak_y, ← s.returnFromBreak_flags,
    ← s.returnFromBreak_mem, ← s.returnFromBreak_log, ← s.returnFromBreak_params]
  rfl

theorem State.returnFromBreak_sp_toNat (s : State) : s.returnFromBreak.sp.toNat = (s.sp.toNat + 3) % 256 := by
  rw [State.returnFromBreak_sp, Byte.toNat_add_one, Byte.toNat_add_one, Byte.toNat_add_one]
  omega

/-- The word above the flags byte, as a number, by the distances of its bytes from SP (R261). -/
theorem State.returnFromBreak_pc_toNat (s : State) : s.returnFromBreak.pc.toNat =
    (s.memRead (stackCell s 2)).toNat + 256 * (s.memRead (stackCell s 3)).toNat := by
  rw [State.returnFromBreak_pc, State.pulledWord_toNat, stackCell_one, stackCell_two, stackCell_two, stackCell_three]
  rfl

section
variable {s w : State} (hsp : w.sp = s.takeBreak.sp)
include hsp

/-- The return moves SP back over the three bytes of the trap (R262). -/
theorem State.returnFromBreak_sp_of_takeBreak : w.returnFromBreak.sp = s.sp := by
  rw [State.returnFromBreak_sp, hsp, State.takeBreak_sp]
  simp only [BitVec.sub_add_cancel]

/-- The first byte pulled is the last one pushed (R262). -/
theorem State.returnFromBreak_flags_of_takeBreak (hflags : w.memRead (stackCell s (-2)) = s.flags.pack) :
    w.returnFromBreak.flags = s.flags := by
  rw [State.returnFromBreak_flags, State.pulled, hsp, State.takeBreak_sp, BitVec.sub_add_cancel,
    ← stackCell_neg_two, hflags, Flags.unpack_pack]

/-- With the flags byte pulled, the word on the stack is the one the trap pushed (R262). -/
theorem State.returnFromBreak_pc_of_takeBreak (hhi : w.memRead (stackCell s 0) = highByte (s.pc + 2))
    (hlo : w.memRead (stackCell s (-1)) = lowByte (s.pc + 2)) : w.returnFromBreak.pc = s.pc + 2 := by
  rw [stackCell_zero] at hhi
  rw [stackCell_neg_one] at hlo
  have hpull : w.pull.sp = s.sp - 1 - 1 := by
    rw [State.pull_sp, hsp, State.takeBreak_sp, BitVec.sub_add_cancel]
  rw [State.returnFromBreak_pc, State.pulledWord_of_pushWord hpull hhi hlo]

end

end Sys2Proof.Machine

open Sys2Proof Sys2Proof.Machine Sys2Proof.Safety

/-- Settles O57: the next state, what the trap leaves in its three stack cells, and the layout of the flags byte. -/
theorem softwareBreak : Obligations.SoftwareBreak := by
  refine ⟨encodes_of_opcode rfl, fun s => ⟨_, exec_brk s, ?_, s.takeBreak_sp_toNat, ?_, ?_, ?_, ?_,
    fun _ => s.memRead_takeBreak_of_ne⟩⟩
  · rw [State.setCycles_sp, State.setCycles_mem, State.setCycles_pc]
    exact s.takeBreak_setCycles _
  · exact (congrArg BitVec.toNat s.takeBreak_pc_eq_memRead16).trans (wordOf_memRead_toNat s _ _)
  · rw [State.memRead_setCycles, State.memRead_takeBreak_high, highByte_toNat, BitVec.toNat_add]
    rfl
  · rw [State.memRead_setCycles, State.memRead_takeBreak_low, lowByte_toNat, BitVec.toNat_add]
    rfl
  · rw [State.memRead_setCycles, State.memRead_takeBreak_flags, Flags.pack_toNat]

/-- Settles O58: the next state, and the numbers of SP and of the target. -/
theorem returnFromInterrupt : Obligations.ReturnFromInterrupt := by
  refine ⟨encodes_of_opcode rfl, fun s =>
    ⟨_, _, ?_, s.returnFromBreak_sp_toNat, s.returnFromBreak_pc_toNat⟩⟩
  rw [stackCell_one]
  exact (exec_rti s).trans (congrArg _ (s.returnFromBreak_setCycles _))

/-- Settles O59: RTI pulls back from the three stack cells what BRK pushed. -/
theorem trapRoundTrip : Obligations.TrapRoundTrip := by
  refine fun s => ⟨_, exec_brk s, ?_⟩
  simp only [List.forall_mem_cons, List.not_mem_nil, false_imp_iff, implies_true, and_true, State.setCycles_sp,
    State.memRead_setCycles, State.memRead_takeBreak_high, State.memRead_takeBreak_low,
    State.memRead_takeBreak_flags, true_and]
  rintro w hsp ⟨hhi, hlo, hflags⟩
  refine ⟨_, exec_rti w, ?_⟩
  rw [State.setCycles_flags, State.setCycles_sp, State.setCycles_pc, State.setCycles_mem]
  exact ⟨State.returnFromBreak_flags_of_takeBreak hsp hflags, State.returnFromBreak_sp_of_takeBreak hsp,
    State.returnFromBreak_pc_of_takeBreak hsp hhi hlo, w.returnFromBreak_mem⟩
end

