-- ==== Sys2Proof/Proofs/ResetAndRun.lean ====
section
/-! SUPPORT. The family 70_reset_and_hazards: what reset does and keeps (spec/70_reset_and_hazards.md R300, R301), the
halt idiom, and the end of a run with its excess over the budget (R312). -/

namespace Sys2Proof.Machine

open Sys2Proof.Safety

/-! ### Reset -/

theorem resetWith_pc_of_override {r : ResetInputs} {p : Addr} (h : r.pcOverride = some p) (s : State) :
    (resetWith r s).pc = p := by
  simp [resetWith, h]

/-- Without an override PC is loaded from the reset vector (R300). -/
theorem resetWith_pc_of_no_override {r : ResetInputs} (h : r.pcOverride = none) (s : State) :
    (resetWith r s).pc = s.memRead16 resetVector := by
  simp [resetWith, h]

/-- The invariant speaks of memory and the log alone, and reset leaves both (R300, R301). -/
theorem inv_resetWith (r : ResetInputs) {s : State} (h : Inv s) : Inv (resetWith r s) := h

/-! ### The halt idiom -/

/-- At the halt idiom the fetched instruction is a jump to itself (R312). -/
theorem fetchInstr_of_haltIdiom {s : State} (h : haltIdiom s = true) : fetchInstr s = .jmp s.pc := by
  obtain ⟨hop, htarget⟩ : s.memRead s.pc = 0x4C ∧ s.memRead16 (s.pc + 1) = s.pc := by simpa [haltIdiom] using h
  have hnext : s.pc + 1 + 1 = s.pc + 2 := BitVec.add_assoc s.pc 1 1
  calc fetchInstr s
    _ = .jmp (wordOf (s.memRead (s.pc + 2)) (s.memRead (s.pc + 1))) := by rw [fetchInstr, hop]; rfl
    _ = .jmp (s.memRead16 (s.pc + 1)) := by rw [State.memRead16, hnext]
    _ = .jmp s.pc := by rw [htarget]

/-! ### The bounds of a count under any table -/

/-- An instruction pays the page penalty or the branch extra, not both (R117, R173). -/
theorem pageExtra_add_branchExtra_le (s : State) (i : Instr) : pageExtra s i + branchExtra s i ≤ 2 := by
  rcases hb : branchCondition s i with _ | p
  · have hbranch : branchExtra s i = 0 := by simp [branchExtra, hb]
    have hpage : pageExtra s i ≤ 1 := by
      unfold pageExtra
      split <;> decide
    omega
  · have hpage : pageExtra s i = 0 := by simp [pageExtra, (pagePenalty_of_branch hb).1]
    have := branchExtra_le s i
    omega

/-- The state with the default CYCLE_TABLE (R118). -/
def State.withDefaultTable (s : State) : State := { s with params := { s.params with cycleTable := [] } }

/-- The penalties do not depend on the table, so the default's bound holds of them (R117, R118). -/
theorem defaultCycles_add_extras_le (s : State) (i : Instr) :
    defaultCycles i + pageExtra s i + branchExtra s i ≤ 7 := by
  have hle := (nextState_cycles_bounds i s.withDefaultTable rfl).2
  rw [nextState_cycles, baseCycles_default _ rfl] at hle
  exact hle

/-- Where every count the table lists lies between 1 and `m`, a step costs between 1 and the larger of 7 and `m + 2`. -/
theorem nextState_cycles_bounds_of_table {m : Nat} {s : State} (h : ∀ e ∈ s.params.cycleTable, 1 ≤ e.2 ∧ e.2 ≤ m)
    (i : Instr) : 1 ≤ (nextState i s).cycles ∧ (nextState i s).cycles ≤ max 7 (m + 2) := by
  rw [nextState_cycles]
  obtain hbase | ⟨e, he, hbase⟩ := baseCycles_mem s.params i
  · have := (defaultCycles_bounds i).1
    have := defaultCycles_add_extras_le s i
    omega
  · obtain ⟨hpos, hle⟩ := h e he
    have := pageExtra_add_branchExtra_le s i
    omega

/-! ### The end of a run -/

theorem runToEnd_of_haltIdiom {s : State} (h : haltIdiom s = true) (budget fuel sum : Nat) :
    runToEnd budget (fuel + 1) sum s = some (sum, s) := by
  rw [runToEnd, if_pos h]

theorem runToEnd_of_not_haltIdiom {s : State} (h : ¬ haltIdiom s = true) (budget fuel sum : Nat) :
    runToEnd budget (fuel + 1) sum s =
      if budget ≤ sum + (stepState s).cycles then some (sum + (stepState s).cycles, stepState s)
      else runToEnd budget fuel (sum + (stepState s).cycles) (stepState s) := by
  simp only [runToEnd, if_neg h, step_eq_stepState]

/-- A run that has not reached its budget ends, if its steps may be as many as the cycles that are left: each step
costs at least one. It overshoots by the cost of its last step, less the one cycle at least that was left (R312). -/
theorem exists_runToEnd {budget m fuel sum : Nat} {s : State} (h : ∀ e ∈ s.params.cycleTable, 1 ≤ e.2 ∧ e.2 ≤ m)
    (hsum : sum < budget) (hfuel : budget ≤ sum + fuel) :
    ∃ sum' t, runToEnd budget fuel sum s = some (sum', t) ∧ sum' ≤ budget + max 6 (m + 1) ∧
      (budget ≤ sum' ∨ haltIdiom t = true) := by
  induction fuel generalizing sum s with
  | zero => omega
  | succ fuel ih =>
    by_cases hhalt : haltIdiom s = true
    · exact ⟨sum, s, runToEnd_of_haltIdiom hhalt budget fuel sum, by omega, .inr hhalt⟩
    · obtain ⟨hpos, hle⟩ : 1 ≤ (stepState s).cycles ∧ (stepState s).cycles ≤ max 7 (m + 2) :=
        nextState_cycles_bounds_of_table h _
      rw [runToEnd_of_not_haltIdiom hhalt]
      split
      · next hreached => exact ⟨_, _, rfl, by omega, .inl hreached⟩
      · next hbelow =>
        have hparams : (stepState s).params = s.params := nextState_params _ s
        exact ih (by rwa [hparams]) (by omega) (by omega)

end Sys2Proof.Machine

open Sys2Proof Sys2Proof.Machine Sys2Proof.Safety

/-- Settles O28: State.reset lists no byte and no event. -/
theorem resetMeetsInvariant : Obligations.ResetMeetsInvariant :=
  ⟨⟨Memory.wf_nil, List.forall_mem_nil _⟩, fun r _ => inv_resetWith r⟩

/-- Settles O29: PC by its two cases, and every other field as `resetWith` writes it. -/
theorem resetProcedure : Obligations.ResetProcedure := by
  refine fun r s => ⟨rfl, rfl, rfl, rfl, rfl, fun _ h => resetWith_pc_of_override h s, fun h => ?_, rfl, rfl, rfl⟩
  rw [resetWith_pc_of_no_override h]
  exact wordOf_memRead_toNat s _ _

/-- Settles O60: the halt idiom is a jump to itself; and a run ends by `exists_runToEnd`, from the sum 0. -/
theorem endOfRun : Obligations.EndOfRun := by
  refine ⟨fun s h => ?_, fun budget m s hbudget h => exists_runToEnd h hbudget (Nat.zero_add budget).ge⟩
  rw [step, fetchInstr_of_haltIdiom h, exec_jmp]
  rfl
end
